-- ==== Sys2Proof/Word.lean ====
section
/-!
DEFINITION. The bit patterns that cross the ports of `half_core` and index its two tables
(spec/00_scope.md R5, R6; spec/10_state.md R10, R12; spec/30_encoding.md R39, R41).
-/
namespace Sys2Proof

/-- A half pattern, `HALF_W` = 16 bits (R5, R10). -/
abbrev HalfBits := BitVec 16

/-- A float pattern, `FLOAT_W` = 32 bits (R5, R12). -/
abbrev FloatBits := BitVec 32

/-- An index of the exponent table ELUT, 9 bits: sign, then the 8-bit float exponent (R24, R26). -/
abbrev ElutKey := BitVec 9

/-- An entry of ELUT, `ELUT_ENTRY_W` = 16 bits: a half fragment or the sentinel 0 (R5, R24). -/
abbrev ElutEntry := BitVec 16

/-- The operation select `cmd_op`, 4 bits (R39). -/
abbrev OpBits := BitVec 4

/-- The argument `cmd_arg`, 32 bits (R39). -/
abbrev ArgBits := BitVec 32

/-- The output port `result`, 32 bits (R39). -/
abbrev ResultBits := BitVec 32

/-- A command word of the one format CMD36: `op` in bits 35..32, `arg` in bits 31..0 (R41). -/
abbrev CommandWord := BitVec 36

end Sys2Proof
end

