-- ==== Sys2Proof/Syntax.lean ====
section
/-!
DEFINITION. The twelve operations of spec/opcode_table.json (spec/30_encoding.md R43) and the lines of the
assembler syntax (R47, R48). A constructor of `Instr` carries exactly the fields its table row names: the operand
(`f`, `h` or `k`) and, where the row has one, the ignored field `x`. So no bit of a command word is lost.
-/
namespace Sys2Proof

/-- The mnemonics of R43, one for each operation. -/
inductive Mnemonic where
  | encT | encA | decT | decA | elutRd
  | isneg | iszero | isfinite | isnorm | isdenorm | isinf | isnan
  deriving DecidableEq, Repr

/-- The three operand forms of R42. -/
inductive OperandForm where
  /-- A float pattern, `arg[31:0]`. -/
  | F
  /-- A half pattern, `arg[15:0]`; `arg[31:16]` is ignored. -/
  | H
  /-- An ELUT key, `arg[8:0]`; `arg[31:9]` is ignored. -/
  | K
  deriving DecidableEq, Repr

/-- The operations of the block, one constructor per row of the opcode table. `x` is the row's ignored field,
"any value" (R42, R45). -/
inductive Instr where
  /-- Encode by the table path (R63). -/
  | encT (f : FloatBits)
  /-- Encode by the arithmetic path (R60). -/
  | encA (f : FloatBits)
  /-- Decode by the table path (R74). -/
  | decT (x : BitVec 16) (h : HalfBits)
  /-- Decode by the arithmetic path (R73). -/
  | decA (x : BitVec 16) (h : HalfBits)
  /-- Read one entry of the exponent table (R87). -/
  | elutRd (x : BitVec 23) (k : ElutKey)
  /-- Sign bit set (R78). -/
  | isneg (x : BitVec 16) (h : HalfBits)
  /-- Signed zero (R79). -/
  | iszero (x : BitVec 16) (h : HalfBits)
  /-- Finite (R80). -/
  | isfinite (x : BitVec 16) (h : HalfBits)
  /-- Normalized (R81). -/
  | isnorm (x : BitVec 16) (h : HalfBits)
  /-- Subnormal (R82). -/
  | isdenorm (x : BitVec 16) (h : HalfBits)
  /-- Infinity (R83). -/
  | isinf (x : BitVec 16) (h : HalfBits)
  /-- NaN (R84). -/
  | isnan (x : BitVec 16) (h : HalfBits)
  deriving DecidableEq, Repr

/-- The mnemonic of an instruction (R43). -/
def Instr.mnemonic : Instr → Mnemonic
  | .encT _ => .encT
  | .encA _ => .encA
  | .decT _ _ => .decT
  | .decA _ _ => .decA
  | .elutRd _ _ => .elutRd
  | .isneg _ _ => .isneg
  | .iszero _ _ => .iszero
  | .isfinite _ _ => .isfinite
  | .isnorm _ _ => .isnorm
  | .isdenorm _ _ => .isdenorm
  | .isinf _ _ => .isinf
  | .isnan _ _ => .isnan

/-- The pseudo-instructions of R48. -/
inductive Pseudo where
  | enc | dec | lutRd
  deriving DecidableEq, Repr

/-- A parsed line of the assembler syntax (R47, R48): the operand is any unsigned integer, whether or not it
fits. -/
inductive AsmStatement where
  | operation (m : Mnemonic) (operand : Nat)
  | pseudo (p : Pseudo) (operand : Nat)
  /-- `.word36 0x<9 hex digits>`, a raw command word. -/
  | word36 (word : CommandWord)
  deriving DecidableEq, Repr

end Sys2Proof
end

