-- ==== Sys2Proof/WellFormed.lean ====
section
/-!
DEFINITION. The form in which the assembler leaves a command (spec/30_encoding.md R47): "An assembler refuses a wider
operand and places the operand zero-extended in `arg`". An instruction is well formed when its ignored field is
zero. The BLOCK executes every instruction, well formed or not: an ignored bit has no effect (R42, R45).
-/
namespace Sys2Proof

/-- The ignored field of an instruction, as a number: what stands in `arg` above the operand (R42). -/
def Instr.ignored : Instr → Nat
  | .encT _ => 0
  | .encA _ => 0
  | .decT x _ => x.toNat
  | .decA x _ => x.toNat
  | .elutRd x _ => x.toNat
  | .isneg x _ => x.toNat
  | .iszero x _ => x.toNat
  | .isfinite x _ => x.toNat
  | .isnorm x _ => x.toNat
  | .isdenorm x _ => x.toNat
  | .isinf x _ => x.toNat
  | .isnan x _ => x.toNat

/-- The instruction is one the assembler can write: its ignored bits are zero (R47). -/
abbrev Instr.WellFormed (i : Instr) : Prop := i.ignored = 0

end Sys2Proof
end

