-- ==== Sys2Proof/Decode.lean ====
section
/-!
DEFINITION. The command word CMD36 (spec/30_encoding.md R41), the opcode map (R43), the operand forms (R42), the
decoder, total on any word and refusing by name, and the encoder, both written from the table of R43.
-/
namespace Sys2Proof

/-- `x[hi:lo]`: the field of bits `hi` down to `lo`, read as an unsigned integer (spec/00_scope.md R6). -/
def bitField {w : Nat} (x : BitVec w) (hi lo : Nat) : Nat :=
  (x.toNat >>> lo) % 2 ^ (hi - lo + 1)

/-- Why a number is not the word of an operation. -/
inductive DecodeError where
  /-- The `op` field is 0x5, 0x6, 0x7 or 0xF (R44). -/
  | reservedOp (op : OpBits)
  /-- The number has more than the 36 bits of a command word (R41, R46). -/
  | notACommandWord
  deriving DecidableEq, Repr

/-- `op`, bits 35..32 of a command word (R41). -/
def commandOp (w : CommandWord) : OpBits := w.extractLsb' 32 4

/-- `arg`, bits 31..0 of a command word (R41). -/
def commandArg (w : CommandWord) : ArgBits := w.extractLsb' 0 32

/-- The command word of the two input ports: `cmd_op` above `cmd_arg` (R39, R41). -/
def commandWord (op : OpBits) (arg : ArgBits) : CommandWord := op ++ arg

/-- Operand form F: `arg[31:0]` (R42). -/
def operandF (arg : ArgBits) : FloatBits := arg

/-- Operand form H: `arg[15:0]` (R42). -/
def operandH (arg : ArgBits) : HalfBits := arg.extractLsb' 0 16

/-- What form H ignores: `arg[31:16]` (R42). -/
def ignoredH (arg : ArgBits) : BitVec 16 := arg.extractLsb' 16 16

/-- Operand form K: `arg[8:0]` (R42). -/
def operandK (arg : ArgBits) : ElutKey := arg.extractLsb' 0 9

/-- What form K ignores: `arg[31:9]` (R42). -/
def ignoredK (arg : ArgBits) : BitVec 23 := arg.extractLsb' 9 23

/-- The opcode map of R43: which operation an `op` value selects. 0x5, 0x6, 0x7 and 0xF are reserved (R44). -/
def operationOf (op : OpBits) : Option Mnemonic :=
  match op.toNat with
  | 0x0 => some .encT
  | 0x1 => some .encA
  | 0x2 => some .decT
  | 0x3 => some .decA
  | 0x4 => some .elutRd
  | 0x5 => none
  | 0x6 => none
  | 0x7 => none
  | 0x8 => some .isneg
  | 0x9 => some .iszero
  | 0xA => some .isfinite
  | 0xB => some .isnorm
  | 0xC => some .isdenorm
  | 0xD => some .isinf
  | 0xE => some .isnan
  | _ => none

/-- The instruction an operation and an argument make: the argument split into operand and ignored field (R42). -/
def instrOf (m : Mnemonic) (arg : ArgBits) : Instr :=
  match m with
  | .encT => .encT (operandF arg)
  | .encA => .encA (operandF arg)
  | .decT => .decT (ignoredH arg) (operandH arg)
  | .decA => .decA (ignoredH arg) (operandH arg)
  | .elutRd => .elutRd (ignoredK arg) (operandK arg)
  | .isneg => .isneg (ignoredH arg) (operandH arg)
  | .iszero => .iszero (ignoredH arg) (operandH arg)
  | .isfinite => .isfinite (ignoredH arg) (operandH arg)
  | .isnorm => .isnorm (ignoredH arg) (operandH arg)
  | .isdenorm => .isdenorm (ignoredH arg) (operandH arg)
  | .isinf => .isinf (ignoredH arg) (operandH arg)
  | .isnan => .isnan (ignoredH arg) (operandH arg)

/-- The decoder: "A decoder needs only `op`" (R43). -/
def decode (w : CommandWord) : Except DecodeError Instr :=
  match operationOf (commandOp w) with
  | some m => .ok (instrOf m (commandArg w))
  | none => .error (.reservedOp (commandOp w))

/-- The decoder on any number: a command word has exactly 36 bits (R41), every command has that one length (R46). -/
def decodeNumber (n : Nat) : Except DecodeError Instr :=
  if n < 2 ^ 36 then decode (BitVec.ofNat 36 n) else .error .notACommandWord

/-- The host's reading of a table row's word: the block has no bytes and no byte order (R34), so an instruction's bits
are the one command word, bit 0 the least significant (R6); bits above `nbits` are zero (log entry 12). -/
def decodeTableWord (nbits w : Nat) : Option Instr :=
  match decodeNumber (w % 2 ^ nbits) with
  | .ok i => some i
  | .error _ => none

/-- The `op` value of an operation (R43). -/
def opcodeOf : Mnemonic → OpBits
  | .encT => 0x0#4
  | .encA => 0x1#4
  | .decT => 0x2#4
  | .decA => 0x3#4
  | .elutRd => 0x4#4
  | .isneg => 0x8#4
  | .iszero => 0x9#4
  | .isfinite => 0xA#4
  | .isnorm => 0xB#4
  | .isdenorm => 0xC#4
  | .isinf => 0xD#4
  | .isnan => 0xE#4

/-- The argument of an instruction: the ignored field above the operand (R42). -/
def argumentOf : Instr → ArgBits
  | .encT f => f
  | .encA f => f
  | .decT x h => x ++ h
  | .decA x h => x ++ h
  | .elutRd x k => x ++ k
  | .isneg x h => x ++ h
  | .iszero x h => x ++ h
  | .isfinite x h => x ++ h
  | .isnorm x h => x ++ h
  | .isdenorm x h => x ++ h
  | .isinf x h => x ++ h
  | .isnan x h => x ++ h

/-- The encoder: `op` above `arg` (R41, R43). -/
def encode (i : Instr) : CommandWord := commandWord (opcodeOf i.mnemonic) (argumentOf i)

end Sys2Proof
end

