-- ==== Sys2Proof/Machine/State.lean ====
section
/-!
DEFINITION. The state of `half_core` as plain data (spec/10_state.md R16 to R22; spec/30_encoding.md R39).
The spec's whole architectural state is the two read-only tables, which "A model holds ... as constants, not as state a
step can change" (spec/20_memory.md R31): they are `elutContents` and `lutContents` in Machine/Tables.lean (log entry
1). What is left for `State` are the four ports and the model's own record of the requesters (log entries 2, 3, 7).
-/
namespace Sys2Proof.Machine

/-- A command a requester presents: one (op, argument) pair (spec/00_scope.md R9; R18). The block has no requester
identifiers (spec/60_exceptions.md R101): `requester` only says whom the answer goes to, and no operation reads it. -/
structure Request where
  requester : Nat
  op : OpBits
  arg : ArgBits
  deriving DecidableEq, Repr

/-- What a requester takes as the answer to one command (spec/70_reset_and_hazards.md R108). -/
structure Answer where
  requester : Nat
  result : ResultBits
  illegal : Bool
  deriving DecidableEq, Repr

/-- The state of the model. -/
structure State where
  /-- Input port `cmd_op` (R39): the operation presented last. -/
  cmdOp : OpBits
  /-- Input port `cmd_arg` (R39): the argument presented last. -/
  cmdArg : ArgBits
  /-- Output port `result` (R39, R42). -/
  result : ResultBits
  /-- Output port `illegal` (R39, R44). -/
  illegal : Bool
  /-- The model's own: the commands still to be presented, the next one first (R18, R108). -/
  pending : List Request
  /-- The model's own: the answers taken so far, oldest first (R108; spec/95_test_vectors.md section 3). -/
  answers : List Answer
  deriving DecidableEq, Repr

/-- Nothing to reset but the ports: the tables hold their contents at every instant (R22, R103). The ports' zeros are
the model's DESIGN CHOICE (log entry 4): the block drives result 0 and illegal 0 for the input ports' zeros. -/
def State.reset : State where
  cmdOp := 0
  cmdArg := 0
  result := 0
  illegal := false
  pending := []
  answers := []

/-- Why the machine stops with a fault. -/
inductive Fault where
  /-- IllegalOp (spec/60_exceptions.md R93), the only condition the block reports. Raised by `step` on a command
  whose `op` is reserved (R44): "A model treats IllegalOp as a fault of the requester's program". `after` is the state
  the block is in after it: `result = 0`, `illegal = 1`, nothing else changed, so that the next command can be
  answered from it. Safe: the model stops where the block goes on (log entry 5). -/
  | illegalOp (after : State)
  deriving DecidableEq, Repr

/-- Why a step has no meaning. -/
inductive Refusal where
  /-- An instruction whose meaning is not written yet; raised by `exec`. Safe. No arm of `exec` uses it. -/
  | notModelled (mnemonic : String)
  /-- No command is pending, so "a run with no command pending is over" (spec/70_reset_and_hazards.md R108); raised by
  `step`. Safe: nothing happens on the block either (log entry 6). -/
  | noCommandPending
  deriving DecidableEq, Repr

end Sys2Proof.Machine
end

