-- ==== Sys2Proof/Machine/Flags.lean ====
section
/-!
DEFINITION. The block has no status flags, condition codes, sticky bits or floating-point exception flags
(spec/10_state.md R19; spec/60_exceptions.md R92), so no instruction computes one. Its only status bit is the output
`illegal`, "1 when `cmd_op` is a reserved value" (spec/30_encoding.md R39, R44), which is computed here.
-/
namespace Sys2Proof.Machine

/-- The reserved `op` values: 0x5, 0x6, 0x7 and 0xF (R44). -/
def isReservedOp (op : OpBits) : Bool :=
  op == 0x5#4 || op == 0x6#4 || op == 0x7#4 || op == 0xF#4

end Sys2Proof.Machine
end

