-- ==== Sys2Proof/Machine/Operands.lean ====
section
/-!
DEFINITION. The fields of a half and of a float pattern, as unsigned integers (spec/10_state.md R10, R12;
spec/00_scope.md R6), and the result forms of spec/30_encoding.md R42. (The operand forms of R42 are the decoder's,
in Decode.lean.)
-/
namespace Sys2Proof.Machine

/-- `s = h[15]` (R10). -/
def halfSign (h : HalfBits) : Nat := bitField h 15 15

/-- `e = h[14:10]`, bias 15 (R10). -/
def halfExp (h : HalfBits) : Nat := bitField h 14 10

/-- `m = h[9:0]` (R10). -/
def halfMant (h : HalfBits) : Nat := bitField h 9 0

/-- `s = f[31]` (R12, R50). -/
def floatSign (f : FloatBits) : Nat := bitField f 31 31

/-- `E = f[30:23]`, bias 127 (R12, R50). -/
def floatExp (f : FloatBits) : Nat := bitField f 30 23

/-- `m = f[22:0]` (R12, R50). -/
def floatMant (f : FloatBits) : Nat := bitField f 22 0

/-- `msb(v)` for v > 0: the index of the highest set bit (R7). -/
def msb (v : Nat) : Nat := Nat.log2 v

/-- A half pattern as a result: `zext_32(h)` (R42). -/
def packHalf (h : HalfBits) : ResultBits := h.setWidth 32

/-- A float pattern as a result: itself (R42). -/
def packFloat (f : FloatBits) : ResultBits := f

/-- An ELUT entry as a result: `zext_32(entry)` (R42). -/
def packEntry (entry : ElutEntry) : ResultBits := entry.setWidth 32

/-- A predicate as a result: `zext_32(b)`, in `result[0]` (R42). -/
def packPredicate (b : Bool) : ResultBits := (BitVec.ofBool b).setWidth 32

end Sys2Proof.Machine
end

