-- ==== Sys2Proof/Machine/Ops.lean ====
section
/-!
DEFINITION. The named operations on the state: presenting a command, driving the output ports, taking the answer,
and raising IllegalOp. There is no register, no program counter and no memory write primitive (spec/00_scope.md R7), so
these are all. Taking an exception is `raiseIllegalOp`; there is no trap to enter and none to return from
(spec/60_exceptions.md R97, R98), so no return stands beside it.
-/
namespace Sys2Proof.Machine

/-- The requester presents the command on the input ports; `rest` are the commands still to come (R108). -/
def State.accept (s : State) (r : Request) (rest : List Request) : State :=
  { s with cmdOp := r.op, cmdArg := r.arg, pending := rest }

/-- `result <- v; illegal <- b` (R7). -/
def State.drive (s : State) (v : ResultBits) (b : Bool) : State :=
  { s with result := v, illegal := b }

/-- The requester takes the outputs as the answer to its command (R108). -/
def State.takeAnswer (s : State) (requester : Nat) : State :=
  { s with answers := s.answers ++ [⟨requester, s.result, s.illegal⟩] }

/-- How every operation ends: `result <- v; illegal <- 0` (R60, R63, R73, R74, R77, R87). -/
def answerWith (v : ResultBits) (s : State) : Host.Outcome State Fault Refusal :=
  .next (s.drive v false)

/-- `raise IllegalOp`: `result <- 0; illegal <- 1`; "the command reads no table and changes no state" (R7, R93). -/
def raiseIllegalOp (s : State) : Host.Outcome State Fault Refusal :=
  .fault (.illegalOp (s.drive 0 true))

/-- After a command is answered, its requester takes the answer; the answer of a reserved command (result 0, illegal
1) is taken as well (R93, R108). -/
def deliver (requester : Nat) : Host.Outcome State Fault Refusal → Host.Outcome State Fault Refusal
  | .next s => .next (s.takeAnswer requester)
  | .fault (.illegalOp s) => .fault (.illegalOp (s.takeAnswer requester))
  | .refused r => .refused r

end Sys2Proof.Machine
end

