-- ==== Sys2Proof/Machine/Classifier.lean ====
section
/-!
DEFINITION. The classifier family, sub-block `half_classifier` (spec/42_classifier.md R77 to R84; spec/30_encoding.md
R40): seven predicates on the fields of a half pattern, all computed at once, and one operation for each.
-/
namespace Sys2Proof.Machine

/-- isNegative: "sign bit set, regardless of value being zero" (R78). -/
def halfIsNegative (h : HalfBits) : Bool := halfSign h == 1

/-- isZero: "exponent and mantissa both zero, either sign" (R79). -/
def halfIsZero (h : HalfBits) : Bool := halfExp h == 0 && halfMant h == 0

/-- isFinite: "exponent field ≠ 31" (R80). -/
def halfIsFinite (h : HalfBits) : Bool := halfExp h != 31

/-- isNormalized: "exponent field ∉ {0, 31}" (R81). -/
def halfIsNormalized (h : HalfBits) : Bool := halfExp h != 0 && halfExp h != 31

/-- isDenormalized: "exponent field = 0, mantissa ≠ 0" (R82). -/
def halfIsDenormalized (h : HalfBits) : Bool := halfExp h == 0 && halfMant h != 0

/-- isInfinity: "exponent field = 31, mantissa = 0" (R83). -/
def halfIsInfinity (h : HalfBits) : Bool := halfExp h == 31 && halfMant h == 0

/-- isNaN: "exponent field = 31, mantissa ≠ 0" (R84). -/
def halfIsNan (h : HalfBits) : Bool := halfExp h == 31 && halfMant h != 0

/-- The seven output ports of `half_classifier` (R40). -/
structure ClassifierOutputs where
  isNegative : Bool
  isZero : Bool
  isFinite : Bool
  isNormalized : Bool
  isDenormalized : Bool
  isInfinity : Bool
  isNan : Bool
  deriving DecidableEq, Repr

/-- Sub-block `half_classifier`: all seven at once (R40). -/
def halfClassifier (h : HalfBits) : ClassifierOutputs where
  isNegative := halfIsNegative h
  isZero := halfIsZero h
  isFinite := halfIsFinite h
  isNormalized := halfIsNormalized h
  isDenormalized := halfIsDenormalized h
  isInfinity := halfIsInfinity h
  isNan := halfIsNan h

/-- The classifier operations' common frame: `result <- zext_32(b); illegal <- 0` (R77). -/
def answerPredicate (b : Bool) (s : State) : Host.Outcome State Fault Refusal :=
  answerWith (packPredicate b) s

/-- ISNEG (R78). -/
def execIsneg (h : HalfBits) (s : State) : Host.Outcome State Fault Refusal :=
  answerPredicate (halfClassifier h).isNegative s

/-- ISZERO (R79). -/
def execIszero (h : HalfBits) (s : State) : Host.Outcome State Fault Refusal :=
  answerPredicate (halfClassifier h).isZero s

/-- ISFINITE (R80). -/
def execIsfinite (h : HalfBits) (s : State) : Host.Outcome State Fault Refusal :=
  answerPredicate (halfClassifier h).isFinite s

/-- ISNORM (R81). -/
def execIsnorm (h : HalfBits) (s : State) : Host.Outcome State Fault Refusal :=
  answerPredicate (halfClassifier h).isNormalized s

/-- ISDENORM (R82). -/
def execIsdenorm (h : HalfBits) (s : State) : Host.Outcome State Fault Refusal :=
  answerPredicate (halfClassifier h).isDenormalized s

/-- ISINF (R83). -/
def execIsinf (h : HalfBits) (s : State) : Host.Outcome State Fault Refusal :=
  answerPredicate (halfClassifier h).isInfinity s

/-- ISNAN (R84). -/
def execIsnan (h : HalfBits) (s : State) : Host.Outcome State Fault Refusal :=
  answerPredicate (halfClassifier h).isNan s

end Sys2Proof.Machine
end

