-- ==== Sys2Proof/Config.lean ====
section
/-!
DEFINITION. What the design fixes (spec/00_scope.md R5): the format biases and the NaN narrowing
policy. The spec leaves no value open (spec/92_eei_decisions.md), so there is no free value here.
-/
namespace Sys2Proof

/-- The two values of `NAN_NARROW_POLICY` that spec/40_encoder.md R53 defines. -/
inductive NanNarrowPolicy where
  /-- Keep the payload's top ten bits, and 0x001 when those are all zero. -/
  | truncSetLsb
  /-- Keep the payload's top ten bits with bit 9 forced to 1. "alternative, not this hardware". -/
  | quietTrunc
  deriving DecidableEq, Repr

namespace Config

/-- `NAN_NARROW_POLICY`, "fixed at `TRUNC_SET_LSB` for this hardware" (R53; decision D8, log entry 8).
The encoder takes the policy as an argument; only the instructions' meanings fix it to this one. -/
def nanNarrowPolicy : NanNarrowPolicy := .truncSetLsb

/-- `HALF_BIAS` (R5). -/
def halfBias : Nat := 15

/-- `FLOAT_BIAS` (R5). -/
def floatBias : Nat := 127

end Config

end Sys2Proof
end

