-- ==== Sys2Proof/Machine/DecodeArith.lean ====
section
/-!
DEFINITION. The reference decoder `DecodeArith` of spec/41_decoder.md R67 to R72, case by case, on natural numbers
(spec/00_scope.md R6). It never rounds.
-/
namespace Sys2Proof.Machine

/-- Case half subnormal, less the sign: normalize `m * 2^-24` (R68). -/
def decodeSubnormal (m : Nat) : Nat :=
  let p := msb m
  ((p + 103) <<< 23) ||| ((m <<< (23 - p)) &&& 0x7FFFFF)

/-- Case normalized half, less the sign: rebias the exponent, widen the mantissa (R69). -/
def decodeNormal (e m : Nat) : Nat := ((e + 112) <<< 23) ||| (m <<< 13)

/-- Case half NaN, less the sign: the payload goes to float bits 22..13, no bit is forced (R71; decision D9, log
entry 9). -/
def decodeNan (m : Nat) : Nat := 0x7F800000 ||| (m <<< 13)

/-- `DecodeArith(h)` (R72); `sf` is the sign placed at float bit 31 (R67). -/
def decodeArith (h : HalfBits) : FloatBits :=
  let e := halfExp h
  let m := halfMant h
  let sf := halfSign h <<< 31
  BitVec.ofNat 32
    (if e = 0 ∧ m = 0 then sf
     else if e = 0 then sf ||| decodeSubnormal m
     else if e = 31 ∧ m = 0 then sf ||| 0x7F800000
     else if e = 31 then sf ||| decodeNan m
     else sf ||| decodeNormal e m)

end Sys2Proof.Machine
end

