-- ==== Sys2Proof/Machine/Tables.lean ====
section
/-!
DEFINITION. The two read-only tables, `elut_lookup` and `fp16_lut` (spec/20_memory.md R23 to R36), as constants of the
model (R31), and the operation ELUT.RD (spec/43_tables.md R87). An index type has exactly as many values as its table has
entries, so no read is misaligned, partial or out of range (R32, R33).
-/
namespace Sys2Proof.Machine

/-- The lowest half exponent of the ELUT band (spec/00_scope.md R5, R25). -/
def elutBandLow : Int := 1

/-- The highest half exponent of the ELUT band (R5, R25; decision D10, log entry 10). -/
def elutBandHigh : Int := 29

/-- The table generator's entry for a key, for a band ending at `high` (R25). -/
def elutEntryFor (high : Int) (k : ElutKey) : ElutEntry :=
  let s := bitField k 8 8
  let e := bitField k 7 0
  let eh : Int := (e : Int) - Config.floatBias + Config.halfBias
  if elutBandLow ≤ eh ∧ eh ≤ high then BitVec.ofNat 16 ((s <<< 15) ||| (eh.toNat <<< 10)) else 0

/-- The contents of ELUT (R24, R25). -/
def elutContents (k : ElutKey) : ElutEntry := elutEntryFor elutBandHigh k

/-- `ELUT_Read(key)`: no side effect, always the R25 value (R26). -/
def elutRead (key : ElutKey) : ElutEntry := elutContents key

/-- The contents of LUT: the arithmetic decoder by exhaustion (R28, R30). -/
def lutContents (h : HalfBits) : FloatBits := decodeArith h

/-- `LUT_Read(idx)`: no side effect, always the R30 value (R29). -/
def lutRead (idx : HalfBits) : FloatBits := lutContents idx

/-- Sub-block `elut_lookup`: `frag = ELUT_Read(key)` (spec/30_encoding.md R40). Its two read ports, one for the encoder
and one for ELUT.RD, are two calls of this function. -/
def elutLookup (key : ElutKey) : ElutEntry := elutRead key

/-- Sub-block `fp16_lut`: `data = LUT_Read(idx)` (R40). -/
def fp16Lut (idx : HalfBits) : FloatBits := lutRead idx

/-- ELUT.RD (R87): `result <- zext_32(ELUT_Read(K)); illegal <- 0`. -/
def execElutRd (k : ElutKey) (s : State) : Host.Outcome State Fault Refusal :=
  answerWith (packEntry (elutLookup k)) s

end Sys2Proof.Machine
end

