-- ==== Sys2Proof/Machine/Encoder.lean ====
section
/-!
DEFINITION. The encoder family, sub-block `fp16_encoder` (spec/40_encoder.md R50 to R63): the reference function
`EncodeArith` case by case on natural numbers, the table path `EncodeTable`, and the operations ENC.A and ENC.T.
The round bit is `m[12]` and the sticky bits are `m[11:0]` (spec/90_conflicts.md C2).
-/
namespace Sys2Proof.Machine

/-- `RoundMant(m)`: a 23-bit mantissa rounded to ten bits, to nearest even, by one adder (R51). -/
def roundMant (m : Nat) : Nat := (m + 0x0FFF + (m >>> 13) % 2) >>> 13

/-- `NanPayload(m)`: the ten-bit, never-zero payload of a narrowed NaN, under either policy (R53). -/
def nanPayload (policy : NanNarrowPolicy) (m : Nat) : Nat :=
  let p := m >>> 13
  match policy with
  | .truncSetLsb => if p = 0 then 0x001 else p
  | .quietTrunc => p ||| 0x200

/-- Case normalized half range, less the sign: a rounding carry moves into the exponent (R56). -/
def encodeNormal (e m : Nat) : Nat := ((e - 112) <<< 10) + roundMant m

/-- Case half subnormal range, less the sign: shift by the deficit in exponent, round to nearest even (R57). -/
def encodeSubnormal (e m : Nat) : Nat :=
  let mi := 0x800000 ||| m
  let t := 126 - e
  let q := mi >>> t
  let rem := mi &&& ((1 <<< t) - 1)
  let hlf := 1 <<< (t - 1)
  if rem > hlf ∨ (rem = hlf ∧ q % 2 = 1) then q + 1 else q

/-- `EncodeArith(f)` (R59), with the NaN narrowing policy as an argument (R53); `sh` is the sign placed at half
bit 15 (R50). -/
def encodeArith (policy : NanNarrowPolicy) (f : FloatBits) : HalfBits :=
  let e := floatExp f
  let m := floatMant f
  let sh := floatSign f <<< 15
  BitVec.ofNat 16
    (if e = 255 ∧ m ≠ 0 then sh ||| 0x7C00 ||| nanPayload policy m
     else if e = 255 then sh ||| 0x7C00
     else if e ≥ 143 then sh ||| 0x7C00
     else if e ≥ 113 then sh ||| encodeNormal e m
     else if e ≥ 102 then sh ||| encodeSubnormal e m
     else sh)

/-- `FastEnc(frag, m)`: an addition, so that a rounding carry reaches the exponent (R61). -/
def fastEnc (frag : ElutEntry) (m : Nat) : HalfBits := BitVec.ofNat 16 (frag.toNat + roundMant m)

/-- The encoder's ELUT key, `f[31:23]`: "sign bit ∥ 8-bit exponent" (R26). -/
def elutKeyOf (f : FloatBits) : ElutKey := BitVec.ofNat 9 (bitField f 31 23)

/-- The table encoder over any exponent table: the fast path for a fragment, the general-case path for the
sentinel 0 (R62). -/
def encodeWithTable (table : ElutKey → ElutEntry) (policy : NanNarrowPolicy) (f : FloatBits) : HalfBits :=
  let frag := table (elutKeyOf f)
  if frag ≠ 0 then fastEnc frag (floatMant f) else encodeArith policy f

/-- `EncodeTable(f)` (R62). -/
def encodeTable (policy : NanNarrowPolicy) (f : FloatBits) : HalfBits :=
  encodeWithTable elutLookup policy f

/-- The `path` input of `fp16_encoder` and `fp16_decoder`: 0 table, 1 arithmetic (spec/30_encoding.md R40). -/
inductive ConversionPath where
  | table
  | arithmetic
  deriving DecidableEq, Repr

/-- Sub-block `fp16_encoder` (R40), with this hardware's NaN narrowing policy (R53). -/
def fp16Encoder (f : FloatBits) : ConversionPath → HalfBits
  | .table => encodeTable Config.nanNarrowPolicy f
  | .arithmetic => encodeArith Config.nanNarrowPolicy f

/-- ENC.T (R63): `result <- zext_32(EncodeTable(F)); illegal <- 0`. -/
def execEncT (f : FloatBits) (s : State) : Host.Outcome State Fault Refusal :=
  answerWith (packHalf (fp16Encoder f .table)) s

/-- ENC.A (R60): `result <- zext_32(EncodeArith(F)); illegal <- 0`. -/
def execEncA (f : FloatBits) (s : State) : Host.Outcome State Fault Refusal :=
  answerWith (packHalf (fp16Encoder f .arithmetic)) s

end Sys2Proof.Machine
end

