-- ==== Sys2Proof/Machine/Decoder.lean ====
section
/-!
DEFINITION. The decoder family, sub-block `fp16_decoder` (spec/41_decoder.md R73, R74; spec/30_encoding.md R40): the
operations DEC.A and DEC.T. `DecodeArith` itself is in Machine/DecodeArith.lean, the table in Machine/Tables.lean.
-/
namespace Sys2Proof.Machine

/-- Sub-block `fp16_decoder` (R40): the table path reads `fp16_lut` at `h`, the arithmetic path computes. -/
def fp16Decoder (h : HalfBits) : ConversionPath → FloatBits
  | .table => fp16Lut h
  | .arithmetic => decodeArith h

/-- DEC.T (R74): `result <- LUT_Read(H); illegal <- 0`. -/
def execDecT (h : HalfBits) (s : State) : Host.Outcome State Fault Refusal :=
  answerWith (packFloat (fp16Decoder h .table)) s

/-- DEC.A (R73): `result <- DecodeArith(H); illegal <- 0`. -/
def execDecA (h : HalfBits) (s : State) : Host.Outcome State Fault Refusal :=
  answerWith (packFloat (fp16Decoder h .arithmetic)) s

end Sys2Proof.Machine
end

