-- ==== Sys2Proof/Machine/Dispatch.lean ====
section
/-!
DEFINITION. The top level routes a decoded command to the sub-block its operation selects (spec/30_encoding.md R40,
R43): one arm per operation. The ignored field reaches no meaning (R42, R45).
-/
namespace Sys2Proof.Machine

def exec (i : Instr) (s : State) : Host.Outcome State Fault Refusal :=
  match i with
  | .encT f => Sys2Proof.Machine.execEncT f s
  | .encA f => Sys2Proof.Machine.execEncA f s
  | .decT _ h => Sys2Proof.Machine.execDecT h s
  | .decA _ h => Sys2Proof.Machine.execDecA h s
  | .elutRd _ k => Sys2Proof.Machine.execElutRd k s
  | .isneg _ h => Sys2Proof.Machine.execIsneg h s
  | .iszero _ h => Sys2Proof.Machine.execIszero h s
  | .isfinite _ h => Sys2Proof.Machine.execIsfinite h s
  | .isnorm _ h => Sys2Proof.Machine.execIsnorm h s
  | .isdenorm _ h => Sys2Proof.Machine.execIsdenorm h s
  | .isinf _ h => Sys2Proof.Machine.execIsinf h s
  | .isnan _ h => Sys2Proof.Machine.execIsnan h s

end Sys2Proof.Machine
end

