-- ==== Sys2Proof/Machine/Step.lean ====
section
/-!
DEFINITION. One step: "one command is one atomic step from (op, arg) to (result, illegal); nothing is in flight between
steps and a run with no command pending is over" (spec/70_reset_and_hazards.md R108).
-/
namespace Sys2Proof.Machine

/-- What the block does with the command word on its input ports: the selected operation, or IllegalOp (R43, R44). -/
def respond (w : CommandWord) (s : State) : Host.Outcome State Fault Refusal :=
  match decode w with
  | .ok i => exec i s
  | .error _ => raiseIllegalOp s

/-- One step: the next command is presented, the block responds, the requester takes the answer (R108). -/
def step (s : State) : Host.Outcome State Fault Refusal :=
  match s.pending with
  | [] => .refused .noCommandPending
  | r :: rest => deliver r.requester (respond (commandWord r.op r.arg) (s.accept r rest))

/-- A requester presents a command before those already pending. -/
def State.present (s : State) (r : Request) : State := { s with pending := r :: s.pending }

/-- The command word `w` is the next one presented (log entry 2); its bits above `nbits` are zero, and a command word
has no bits above 36 (log entry 12). -/
def State.withFetchWord (s : State) (nbits w : Nat) : State :=
  let word := BitVec.ofNat 36 (w % 2 ^ nbits)
  s.present ⟨0, commandOp word, commandArg word⟩

end Sys2Proof.Machine
end

