-- ==== Sys2Proof/Machine/Assembler.lean ====
section
/-!
DEFINITION. The assembler syntax and the pseudo-instructions (spec/30_encoding.md R47, R48): a line of text to a
command word, and a program's lines to the commands a requester presents. What R47 does not say about the text (blanks,
the case of hexadecimal digits, empty lines) is log entry 13.
-/
namespace Sys2Proof.Machine

/-- How many bits of `arg` an operand form reads (R42). -/
def operandWidth : OperandForm → Nat
  | .F => 32
  | .H => 16
  | .K => 9

/-- The operand form of an operation (R43, column "operand"). -/
def operandFormOf : Mnemonic → OperandForm
  | .encT => .F
  | .encA => .F
  | .decT => .H
  | .decA => .H
  | .elutRd => .K
  | .isneg => .H
  | .iszero => .H
  | .isfinite => .H
  | .isnorm => .H
  | .isdenorm => .H
  | .isinf => .H
  | .isnan => .H

/-- "The operand must fit the operand form's width: 32 bits for F, 16 bits for H, 9 bits for K" (R47). -/
def operandFits (m : Mnemonic) (operand : Nat) : Bool :=
  decide (operand < 2 ^ operandWidth (operandFormOf m))

/-- The operation a pseudo-instruction expands to (R48): `enc X` is `enc.t X`, `dec X` and `lut.rd X` are `dec.t X`. -/
def expandPseudo : Pseudo → Mnemonic
  | .enc => .encT
  | .dec => .decT
  | .lutRd => .decT

/-- Why the assembler refuses a line. -/
inductive AsmError where
  /-- The operand does not fit its form's width (R47). -/
  | operandTooWide (m : Mnemonic) (operand : Nat)
  /-- The first word of the line is no mnemonic. -/
  | unknownMnemonic
  /-- The operand is not an unsigned integer in hexadecimal or decimal. -/
  | malformedOperand
  /-- The line is not a mnemonic and one operand. -/
  | malformedLine
  deriving DecidableEq, Repr

/-- An operation and a fitting operand, zero-extended in `arg`; a wider operand is refused (R47). -/
def assembleOperation (m : Mnemonic) (operand : Nat) : Except AsmError CommandWord :=
  if operandFits m operand then .ok (commandWord (opcodeOf m) (BitVec.ofNat 32 operand))
  else .error (.operandTooWide m operand)

/-- The command word of a statement (R47, R48). -/
def assemble : AsmStatement → Except AsmError CommandWord
  | .operation m n => assembleOperation m n
  | .pseudo p n => assembleOperation (expandPseudo p) n
  | .word36 w => .ok w

/-- The first word of a line: an operation, a pseudo-instruction, or `.word36`. -/
inductive LineHead where
  | operation (m : Mnemonic)
  | pseudo (p : Pseudo)
  | word36
  deriving DecidableEq, Repr

/-- The spellings of R43, R47 and R48, in lower case. -/
def spellings : List (String × LineHead) :=
  [("enc.t", .operation .encT), ("enc.a", .operation .encA), ("dec.t", .operation .decT),
   ("dec.a", .operation .decA), ("elut.rd", .operation .elutRd), ("isneg", .operation .isneg),
   ("iszero", .operation .iszero), ("isfinite", .operation .isfinite), ("isnorm", .operation .isnorm),
   ("isdenorm", .operation .isdenorm), ("isinf", .operation .isinf), ("isnan", .operation .isnan),
   ("enc", .pseudo .enc), ("dec", .pseudo .dec), ("lut.rd", .pseudo .lutRd), (".word36", .word36)]

/-- The meaning of a line's first word, if it has one. -/
def lineHead (word : List Char) : Option LineHead :=
  (spellings.find? (fun entry => entry.1.toList == word)).map Prod.snd

/-- "A comment starts at `;` and runs to the end of the line" (R47). -/
def withoutComment (line : List Char) : List Char := line.takeWhile (· != ';')

/-- A blank between the words of a line: a space or a tab (log entry 13). -/
def isBlank (c : Char) : Bool := c == ' ' || c == '\t'

/-- The words of a line, which blanks separate. -/
def wordsOf (line : List Char) : List (List Char) :=
  (line.foldr (fun c acc => if isBlank c then [] :: acc else
    match acc with
    | [] => [[c]]
    | word :: rest => (c :: word) :: rest) [[]]).filter (fun word => !word.isEmpty)

/-- The digits of R47's integers, each at the place of its value, with hexadecimal letters as the spec writes them. -/
def upperDigits : List Char := "0123456789ABCDEF".toList

/-- The same digits with lower-case letters (log entry 13). -/
def lowerDigits : List Char := "0123456789abcdef".toList

/-- The value of a digit of a base: its place among the base's digits, in either case (log entry 13). -/
def digitValue (base : Nat) (c : Char) : Option Nat :=
  ((upperDigits.take base).idxOf? c).or ((lowerDigits.take base).idxOf? c)

/-- The number a row of digits stands for, most significant first, above the digits already read; none if a character
is no digit of the base. -/
def digitsValueFrom (base : Nat) : Nat → List Char → Option Nat
  | value, [] => some value
  | value, c :: more => (digitValue base c).bind (fun d => digitsValueFrom base (base * value + d) more)

/-- The number a row of digits of a base stands for (R47). -/
def digitsValue (base : Nat) (digits : List Char) : Option Nat := digitsValueFrom base 0 digits

/-- "an unsigned integer written in hexadecimal (`0x` prefix) or decimal" (R47). -/
def operandValue (word : List Char) : Option Nat :=
  match word with
  | '0' :: 'x' :: digits => if digits.isEmpty then none else digitsValue 16 digits
  | digits => if digits.isEmpty then none else digitsValue 10 digits

/-- `0x<9 hex digits>`, a whole command word (R41, R47). -/
def rawWordValue (word : List Char) : Option CommandWord :=
  match word with
  | '0' :: 'x' :: digits =>
    if digits.length = 9 then (digitsValue 16 digits).map (BitVec.ofNat 36) else none
  | _ => none

/-- One line, parsed: `none` for a line that holds no statement (R47). -/
def parseLine (line : String) : Except AsmError (Option AsmStatement) :=
  match wordsOf (withoutComment line.toList) with
  | [] => .ok none
  | [head, operand] =>
    match lineHead head with
    | none => .error .unknownMnemonic
    | some .word36 =>
      match rawWordValue operand with
      | some w => .ok (some (.word36 w))
      | none => .error .malformedOperand
    | some (.operation m) =>
      match operandValue operand with
      | some n => .ok (some (.operation m n))
      | none => .error .malformedOperand
    | some (.pseudo p) =>
      match operandValue operand with
      | some n => .ok (some (.pseudo p n))
      | none => .error .malformedOperand
  | _ => .error .malformedLine

/-- The command words of a program's lines, "one per line" (R47); the first bad line refuses the program. -/
def assembleLines : List String → Except AsmError (List CommandWord)
  | [] => .ok []
  | line :: rest =>
    match parseLine line with
    | .error e => .error e
    | .ok none => assembleLines rest
    | .ok (some statement) =>
      match assemble statement, assembleLines rest with
      | .ok w, .ok ws => .ok (w :: ws)
      | .error e, _ => .error e
      | _, .error e => .error e

/-- The command a requester presents for a command word (R39, R41). -/
def requestOf (requester : Nat) (w : CommandWord) : Request := ⟨requester, commandOp w, commandArg w⟩

/-- A requester's program (R18): its words, to be presented after those already pending. -/
def State.loadProgram (s : State) (requester : Nat) (words : List CommandWord) : State :=
  { s with pending := s.pending ++ words.map (requestOf requester) }

end Sys2Proof.Machine
end

