-- ==== Sys2Proof/Machine/Values.lean ====
section
/-!
DEFINITION. The numeric value of a half and of a float pattern (spec/10_state.md R14, R15), which the spec gives from
general knowledge (spec/93_implementation_defined.md GK2, GK3; log entry 15), and the float classes (R13). "No bit-level
rule of the block reads them": no meaning of an instruction uses this file; only statements do.
-/
namespace Sys2Proof.Machine

/-- What a pattern stands for. A zero keeps its sign (R15: "Signed zero has value 0 with sign s"). -/
inductive Value where
  | finite (negative : Bool) (magnitude : ℚ)
  | infinity (negative : Bool)
  | nan
  deriving DecidableEq, Repr

/-- The magnitude of a finite half pattern (R14). -/
def halfMagnitude (h : HalfBits) : ℚ :=
  if halfExp h = 0 then (2 : ℚ) ^ (-14 : ℤ) * ((halfMant h : ℚ) / 1024)
  else (2 : ℚ) ^ ((halfExp h : ℤ) - 15) * (1 + (halfMant h : ℚ) / 1024)

/-- The value of a half pattern (R14). -/
def halfValue (h : HalfBits) : Value :=
  if halfExp h = 31 then
    if halfMant h = 0 then .infinity (halfSign h == 1) else .nan
  else .finite (halfSign h == 1) (halfMagnitude h)

/-- The magnitude of a finite float pattern (R15). -/
def floatMagnitude (f : FloatBits) : ℚ :=
  if floatExp f = 0 then (2 : ℚ) ^ (-126 : ℤ) * ((floatMant f : ℚ) / 2 ^ 23)
  else (2 : ℚ) ^ ((floatExp f : ℤ) - 127) * (1 + (floatMant f : ℚ) / 2 ^ 23)

/-- The value of a float pattern (R15). -/
def floatValue (f : FloatBits) : Value :=
  if floatExp f = 255 then
    if floatMant f = 0 then .infinity (floatSign f == 1) else .nan
  else .finite (floatSign f == 1) (floatMagnitude f)

/-- The signed number of a finite value: `(-1)^s` times the magnitude (R14, R15). -/
def signedValue (negative : Bool) (magnitude : ℚ) : ℚ := if negative then -magnitude else magnitude

/-- The signed number of a finite half pattern (R14). -/
def halfNumber (h : HalfBits) : ℚ := signedValue (halfSign h == 1) (halfMagnitude h)

/-- The signed number of a finite float pattern (R15). -/
def floatNumber (f : FloatBits) : ℚ := signedValue (floatSign f == 1) (floatMagnitude f)

/-- Float NaN: E = 255 and m ≠ 0 (R13). -/
def floatIsNan (f : FloatBits) : Bool := floatExp f == 255 && floatMant f != 0

/-- Float infinity: E = 255 and m = 0 (R13). -/
def floatIsInfinity (f : FloatBits) : Bool := floatExp f == 255 && floatMant f == 0

/-- Float signed zero: E = 0 and m = 0 (R13). -/
def floatIsZero (f : FloatBits) : Bool := floatExp f == 0 && floatMant f == 0

/-- Float subnormal: E = 0 and m ≠ 0 (R13). -/
def floatIsSubnormal (f : FloatBits) : Bool := floatExp f == 0 && floatMant f != 0

/-- Float normalized: 1 ≤ E ≤ 254 (R13). -/
def floatIsNormalized (f : FloatBits) : Bool := floatExp f != 0 && floatExp f != 255

/-- Float finite: not an infinity and not a NaN (R13). -/
def floatIsFinite (f : FloatBits) : Bool := floatExp f != 255

end Sys2Proof.Machine
end

