-- ==== Sys2Proof/Safety.lean ====
section
/-!
DEFINITION. What counts as a successful run (spec/60_exceptions.md R93), the block as a function of its input ports
(spec/30_encoding.md R39; spec/70_reset_and_hazards.md R109), and the block's service of every pending command, reserved ones
included (R93: "The next command is answered normally"), in the terms the statements use.
-/
namespace Sys2Proof.Machine

/-- The state the block is in after an outcome: after IllegalOp too the block goes on (R93). `none` where no command
was answered. -/
def blockState : Host.Outcome State Fault Refusal → Option State
  | .next s => some s
  | .fault (.illegalOp s) => some s
  | .refused _ => none

/-- The two output ports (R39). -/
structure Outputs where
  result : ResultBits
  illegal : Bool
  deriving DecidableEq, Repr

/-- What the block drives for a pair of input values (R39, R109), read off its response from the reset state. -/
def outputs (op : OpBits) (arg : ArgBits) : Outputs :=
  match blockState (respond (commandWord op arg) State.reset) with
  | some s => ⟨s.result, s.illegal⟩
  | none => ⟨0, false⟩

/-- The answer a request gets from the block's function of its input ports. -/
def answerTo (r : Request) : Answer := ⟨r.requester, (outputs r.op r.arg).result, (outputs r.op r.arg).illegal⟩

/-- The output ports are what the block drives for its input ports: "outputs are a function of the current inputs
alone" (R39). -/
def State.Combinational (s : State) : Prop :=
  (⟨s.result, s.illegal⟩ : Outputs) = outputs s.cmdOp s.cmdArg

/-- The block serves up to `k` pending commands, reserved ones included. -/
def serve : Nat → State → State
  | 0, s => s
  | k + 1, s =>
    match blockState (step s) with
    | some t => serve k t
    | none => s

/-- The block serves every pending command. -/
def State.serveAll (s : State) : State := serve s.pending.length s

/-- "the faulted run is not a successful run" (R93): every pending command is answered and none raises IllegalOp. -/
def State.Succeeds (s : State) : Prop :=
  ∃ t, Sys2Proof.core.run s.pending.length s = .next t

/-- No pending command has a reserved `op` (R44). -/
def State.NoReserved (s : State) : Prop :=
  ∀ r ∈ s.pending, isReservedOp r.op = false

/-- Both encode operations complete on `f`, from every state, with the half `h` zero-extended on `result`, `illegal`
0, and nothing else changed. -/
def EncodesTo (f : FloatBits) (h : HalfBits) : Prop :=
  ∀ (s : State) (i : Instr), i = .encT f ∨ i = .encA f →
    exec i s = .next { s with result := h.setWidth 32, illegal := false }

/-- Both decode operations complete on `h`, from every state and for every ignored field, with the float `f` on
`result`, `illegal` 0, and nothing else changed. -/
def DecodesTo (h : HalfBits) (f : FloatBits) : Prop :=
  ∀ (s : State) (x : BitVec 16) (i : Instr), i = .decT x h ∨ i = .decA x h →
    exec i s = .next { s with result := f, illegal := false }

/-- The instruction completes, from every state, with 1 on `result` if `b` is true and 0 if not, `illegal` 0, and
nothing else changed. -/
def AnswersBit (i : Instr) (b : Bool) : Prop :=
  ∀ s : State, exec i s = .next { s with result := if b then 1 else 0, illegal := false }

end Sys2Proof.Machine
end

