-- ==== Sys2Proof/Certificates/Slice0/Obligations.lean ====
section
/-!
DEFINITION. The statements for the provers, from the numbered rules of spec/. Where a docstring says "an inference the
spec marks as its own", the rule carries a [derived: ...] mark there.
-/

open Sys2Proof Sys2Proof.Machine

/-! ### Encoding -/

/-- Every instruction survives encoding and decoding, all its bits included, also through the host's reading of a table
word (spec/30_encoding.md sections 2 and 3). -/
def Obligations.DecodeOfEncodeIsTheInstruction : Prop :=
  ∀ i : Instr, decode (encode i) = .ok i ∧ decodeTableWord 40 (encode i).toNat = some i

/-- Each command word the decoder accepts has one meaning, and encoding it gives the word back: no bit is dropped
(spec/30_encoding.md sections 2 and 3). -/
def Obligations.EncodeOfDecodeIsTheWord : Prop :=
  ∀ (w : CommandWord) (i : Instr), decode w = .ok i → encode i = w

/-- The block's response to every `op` value, for every argument and state: which operation is selected and its
sub-block (spec/30_encoding.md section 3), its operand bits of `arg` and the packing of its result (section 2), and the four
reserved values (section 4; spec/60_exceptions.md section 1). That the reserved outcome is a fault which carries the state
the block is in after it is the model's choice (log entry 5). -/
def Obligations.OpFieldSelectsTheOperation : Prop :=
  ∀ (arg : ArgBits) (s : State),
    let h : HalfBits := arg.extractLsb' 0 16
    let k : ElutKey := arg.extractLsb' 0 9
    let answer (v : ResultBits) : Host.Outcome State Fault Refusal := .next { s with result := v, illegal := false }
    let bit (b : Bool) := answer (if b then 1 else 0)
    let reserved : Host.Outcome State Fault Refusal := .fault (.illegalOp { s with result := 0, illegal := true })
    respond (0x0#4 ++ arg) s = answer ((fp16Encoder arg .table).setWidth 32) ∧
    respond (0x1#4 ++ arg) s = answer ((fp16Encoder arg .arithmetic).setWidth 32) ∧
    respond (0x2#4 ++ arg) s = answer (fp16Decoder h .table) ∧
    respond (0x3#4 ++ arg) s = answer (fp16Decoder h .arithmetic) ∧
    respond (0x4#4 ++ arg) s = answer ((elutLookup k).setWidth 32) ∧
    respond (0x5#4 ++ arg) s = reserved ∧
    respond (0x6#4 ++ arg) s = reserved ∧
    respond (0x7#4 ++ arg) s = reserved ∧
    respond (0x8#4 ++ arg) s = bit (halfClassifier h).isNegative ∧
    respond (0x9#4 ++ arg) s = bit (halfClassifier h).isZero ∧
    respond (0xA#4 ++ arg) s = bit (halfClassifier h).isFinite ∧
    respond (0xB#4 ++ arg) s = bit (halfClassifier h).isNormalized ∧
    respond (0xC#4 ++ arg) s = bit (halfClassifier h).isDenormalized ∧
    respond (0xD#4 ++ arg) s = bit (halfClassifier h).isInfinity ∧
    respond (0xE#4 ++ arg) s = bit (halfClassifier h).isNan ∧
    respond (0xF#4 ++ arg) s = reserved

/-- Words written out from spec/95_test_vectors.md sections 2.5 and 3 decode to the commands they stand for. -/
def Obligations.WrittenOutWordsDecode : Prop :=
  decode 0x03F800000#36 = .ok (.encT 0x3F800000#32) ∧
  decode 0x1477FF000#36 = .ok (.encA 0x477FF000#32) ∧
  decode 0x2FFFF3C00#36 = .ok (.decT 0xFFFF#16 0x3C00#16) ∧
  decode 0x300007C01#36 = .ok (.decA 0#16 0x7C01#16) ∧
  decode 0x4FFFFFE7F#36 = .ok (.elutRd 0x7FFFFF#23 0x07F#9) ∧
  decode 0xEABCD7C01#36 = .ok (.isnan 0xABCD#16 0x7C01#16) ∧
  decode 0xF3F800000#36 = .error (.reservedOp 0xF#4)

/-- A command with a reserved `op` is illegal for every `arg`: it drives `illegal = 1` and `result = 0` and has no other
effect, and the model treats it as a fault; every other `op` drives `illegal = 0` (spec/30_encoding.md section 4). The state
the fault carries, the queue the command is taken from and the answer appended are the model's choices (log entries 5, 2
and 3). -/
def Obligations.ReservedOpsAreIllegalForEveryArgument : Prop :=
  ∀ (s : State) (r : Request) (rest : List Request), s.pending = r :: rest →
    ((r.op = 0x5#4 ∨ r.op = 0x6#4 ∨ r.op = 0x7#4 ∨ r.op = 0xF#4) →
      step s = .fault (.illegalOp
        { cmdOp := r.op, cmdArg := r.arg, result := 0, illegal := true, pending := rest,
          answers := s.answers ++ [⟨r.requester, 0, true⟩] })) ∧
    (¬ (r.op = 0x5#4 ∨ r.op = 0x6#4 ∨ r.op = 0x7#4 ∨ r.op = 0xF#4) →
      ∃ t, step s = .next t ∧ t.illegal = false)

/-- The argument bits an operation ignores have no effect on either output (spec/30_encoding.md section 2, R42, and
section 4, R45): operations on a half read `arg[15:0]`, ELUT.RD reads `arg[8:0]`. -/
def Obligations.IgnoredBitsHaveNoEffect : Prop :=
  ∀ (op : OpBits) (a b : ArgBits),
    ((op = 0x2#4 ∨ op = 0x3#4 ∨ (0x8#4 ≤ op ∧ op ≤ 0xE#4)) →
      a.toNat % 2 ^ 16 = b.toNat % 2 ^ 16 → outputs op a = outputs op b) ∧
    (op = 0x4#4 → a.toNat % 2 ^ 9 = b.toNat % 2 ^ 9 → outputs op a = outputs op b)

/-! ### Steps, faults and the whole machine -/

/-- When the next command decodes to an instruction, a step presents the command on the input ports, executes the
instruction, and hands the outputs to the requester (spec/70_reset_and_hazards.md section 2; the queue and the record of
answers are the model's choices, log entries 2 and 3). -/
def Obligations.StepExecutesTheDecodedCommand : Prop :=
  ∀ (s : State) (r : Request) (rest : List Request) (i : Instr),
    s.pending = r :: rest → decode (r.op ++ r.arg) = .ok i →
      step s = deliver r.requester (exec i { s with cmdOp := r.op, cmdArg := r.arg, pending := rest })

/-- One command is one atomic step from (op, arg) to (result, illegal), and a run with no command pending is over
(spec/70_reset_and_hazards.md section 2, R108). The model's choices are the queue and its rest (log entry 2), the answer
appended (log entry 3), the state after a faulting step (log entry 5), and that the end of a run is a refusal (log entry
6). -/
def Obligations.OneCommandIsOneAtomicStep : Prop :=
  ∀ s : State,
    (s.pending = [] → step s = .refused .noCommandPending) ∧
    (∀ (r : Request) (rest : List Request), s.pending = r :: rest →
      ∃ t, blockState (step s) = some t ∧ t.pending = rest ∧ t.cmdOp = r.op ∧ t.cmdArg = r.arg ∧
        t.result = (outputs r.op r.arg).result ∧ t.illegal = (outputs r.op r.arg).illegal ∧
        t.answers = s.answers ++ [⟨r.requester, t.result, t.illegal⟩])

/-- R91: no defined operation raises an exception, for any argument: every instruction completes from every state. It
changes nothing but the output ports: `illegal` becomes 0. -/
def Obligations.EveryOperationIsTotal : Prop :=
  ∀ (i : Instr) (s : State), ∃ v : ResultBits, exec i s = .next { s with result := v, illegal := false }

/-- The only condition a step ever reports is IllegalOp, and only a reserved `op` raises it (that each one does is
`ReservedOpsAreIllegalForEveryArgument`); the block records nothing but `illegal = 1` and `result = 0`; the next command is
answered normally, with `illegal` back at 0 if its `op` is defined; and the faulted run is not a successful run
(spec/60_exceptions.md section 1, R93). The state the fault carries, the queue and the answer recorded are the model's
choices (log entries 5, 2 and 3). -/
def Obligations.IllegalOpIsTheOnlyCondition : Prop :=
  ∀ (s : State) (φ : Fault), step s = .fault φ →
    ∃ (r : Request) (rest : List Request) (t : State),
      s.pending = r :: rest ∧ (r.op = 0x5#4 ∨ r.op = 0x6#4 ∨ r.op = 0x7#4 ∨ r.op = 0xF#4) ∧ φ = .illegalOp t ∧
      t = { cmdOp := r.op, cmdArg := r.arg, result := 0, illegal := true, pending := rest,
            answers := s.answers ++ [⟨r.requester, 0, true⟩] } ∧
      (∀ (r' : Request) (rest' : List Request), rest = r' :: rest' →
        ¬ (r'.op = 0x5#4 ∨ r'.op = 0x6#4 ∨ r'.op = 0x7#4 ∨ r'.op = 0xF#4) →
        ∃ u, step t = .next u ∧ u.illegal = false ∧ u.result = (outputs r'.op r'.arg).result) ∧
      ¬ s.Succeeds

/-- At reset the output ports are what the block drives for the input ports (spec/30_encoding.md section 1), and nothing is
pending and nothing has been answered. The queue and the record of answers, empty at reset, and the ports' reset zeros are
the model's choices (log entries 2, 3 and 4): the spec has nothing to reset but the tables. -/
def Obligations.ResetOutputsMatchInputs : Prop :=
  State.reset.pending = [] ∧ State.reset.answers = [] ∧ State.reset.Combinational

/-- Invariant: the block is combinational (spec/30_encoding.md section 1; spec/70_reset_and_hazards.md section 3): after
every step, faulting or not, the output ports are a function of the input ports alone. -/
def Obligations.OutputsStayAFunctionOfTheInputs : Prop :=
  ∀ s t : State, s.Combinational → (step s = .next t ∨ step s = .fault (.illegalOp t)) → t.Combinational

/-- Serving every pending command, reserved ones included, answers each one, in order, with the block's function of
that command alone (spec/60_exceptions.md section 4; spec/70_reset_and_hazards.md section 2; the record of answers is log
entry 3). -/
def Obligations.ServiceAnswersEachCommandAlone : Prop :=
  ∀ s : State, s.serveAll.pending = [] ∧ s.serveAll.answers = s.answers ++ s.pending.map answerTo

/-- Requesters do not interfere (spec/60_exceptions.md section 4; spec/20_memory.md section 5): what a requester gets
depends only on its own commands, however they are interleaved with whatever other requesters present, illegal commands
included, and whatever stands on the ports before (requesters are the model's own record, log entry 7). -/
def Obligations.RequestersDoNotInterfere : Prop :=
  ∀ (s t : State) (q : Nat),
    s.pending.filter (fun r => r.requester == q) = t.pending.filter (fun r => r.requester == q) →
    s.answers.filter (fun a => a.requester == q) = t.answers.filter (fun a => a.requester == q) →
    s.serveAll.answers.filter (fun a => a.requester == q) = t.serveAll.answers.filter (fun a => a.requester == q)

/-- A run of all pending commands succeeds exactly when none of them has a reserved `op`, and it then ends in the state
the block's service of them ends in (spec/60_exceptions.md section 1). -/
def Obligations.RunSucceedsExactlyWithoutReservedOps : Prop :=
  ∀ s : State, (s.Succeeds ↔ s.NoReserved) ∧
    ∀ t, Sys2Proof.core.run s.pending.length s = .next t → t = s.serveAll

/-! ### Encoder -/

/-- R51: the rounded mantissa is the kept bits `m[22:13]`, plus 1 exactly when the round bit `m[12]` is 1 and either a
sticky bit of `m[11:0]` is 1 or the lowest kept bit is 1; it is 0x400 only when all kept bits are 1 and the rounding
adds 1. -/
def Obligations.MantissaRoundsToNearestEven : Prop :=
  ∀ m : Nat, m < 2 ^ 23 →
    let kept := m / 2 ^ 13
    let roundUp := m / 2 ^ 12 % 2 = 1 ∧ (m % 2 ^ 12 ≠ 0 ∨ kept % 2 = 1)
    (roundUp → roundMant m = kept + 1) ∧ (¬ roundUp → roundMant m = kept) ∧ roundMant m ≤ 0x400 ∧
    (roundMant m = 0x400 ↔ kept = 0x3FF ∧ roundUp)

/-- R52, R53: a float NaN narrows to a half NaN of the same sign whose payload is the float payload's top ten bits, or
0x001 when those are all zero; under the alternative policy the top payload bit is forced; under neither is the payload
zero. -/
def Obligations.NanNarrowsToNanOfTheSameSign : Prop :=
  ∀ f : FloatBits, floatExp f = 255 → floatMant f ≠ 0 →
    let top := floatMant f / 2 ^ 13
    let payload := if top = 0 then 1 else top
    EncodesTo f (BitVec.ofNat 16 (floatSign f * 2 ^ 15 + 0x7C00 + payload)) ∧
    encodeArith .quietTrunc f = BitVec.ofNat 16 (floatSign f * 2 ^ 15 + 0x7C00 + (top ||| 0x200)) ∧
    ∀ policy, 0 < nanPayload policy (floatMant f) ∧ nanPayload policy (floatMant f) < 2 ^ 10

/-- R54: a float infinity narrows to the half infinity of the same sign. -/
def Obligations.InfinityNarrowsToInfinity : Prop :=
  ∀ f : FloatBits, floatExp f = 255 → floatMant f = 0 →
    EncodesTo f (BitVec.ofNat 16 (floatSign f * 2 ^ 15 + 0x7C00))

/-- A finite float of exponent field 143 or more narrows to the half infinity of its sign (spec/40_encoder.md section 1,
R55, whose bound is an inference the spec marks as its own). -/
def Obligations.LargeExponentOverflowsToInfinity : Prop :=
  ∀ f : FloatBits, 143 ≤ floatExp f → floatExp f ≤ 254 →
    EncodesTo f (BitVec.ofNat 16 (floatSign f * 2 ^ 15 + 0x7C00))

/-- The normalized half range, exponent fields 113 to 142: rebiased exponent, kept bits, rounded to nearest even, with
the rounding carry moving into the exponent (spec/40_encoder.md section 1, R56). -/
def Obligations.NormalRangeRoundsWithCarryIntoExponent : Prop :=
  ∀ f : FloatBits, 113 ≤ floatExp f → floatExp f ≤ 142 →
    let m := floatMant f
    let kept := m / 2 ^ 13
    let roundUp := m / 2 ^ 12 % 2 = 1 ∧ (m % 2 ^ 12 ≠ 0 ∨ kept % 2 = 1)
    EncodesTo f (BitVec.ofNat 16
      (floatSign f * 2 ^ 15 + (floatExp f - 112) * 2 ^ 10 + kept + if roundUp then 1 else 0))

/-- The half subnormal range, exponent fields 102 to 112: the mantissa with its leading 1 is divided by `2^(126-E)` and
rounded to nearest, ties to even; the result reaches at most the pattern 0x0400 (spec/40_encoder.md section 1, R57). -/
def Obligations.SubnormalRangeRoundsToNearestEven : Prop :=
  ∀ f : FloatBits, 102 ≤ floatExp f → floatExp f ≤ 112 →
    let n := 2 ^ 23 + floatMant f
    let d := 2 ^ (126 - floatExp f)
    let roundUp := 2 * (n % d) > d ∨ (2 * (n % d) = d ∧ n / d % 2 = 1)
    let q := n / d + if roundUp then 1 else 0
    q ≤ 0x400 ∧ EncodesTo f (BitVec.ofNat 16 (floatSign f * 2 ^ 15 + q))

/-- R58: exponent fields 0 to 101, which hold the float zeros and every float subnormal, narrow to the zero of the
float's sign. -/
def Obligations.SmallExponentFlushesToSignedZero : Prop :=
  ∀ f : FloatBits, floatExp f ≤ 101 → EncodesTo f (BitVec.ofNat 16 (floatSign f * 2 ^ 15))

/-- R62: the table encoder takes the fast path exactly for exponent fields 113 to 141, and the general-case path, which
is the reference encoder, for 0 to 112 and 142 to 255. -/
def Obligations.FastPathIsTakenExactlyInTheBand : Prop :=
  ∀ (policy : NanNarrowPolicy) (f : FloatBits),
    (elutRead (BitVec.ofNat 9 (f.toNat / 2 ^ 23)) ≠ 0 ↔ 113 ≤ floatExp f ∧ floatExp f ≤ 141) ∧
    (113 ≤ floatExp f ∧ floatExp f ≤ 141 →
      encodeTable policy f = fastEnc (elutRead (BitVec.ofNat 9 (f.toNat / 2 ^ 23))) (floatMant f)) ∧
    (floatExp f ≤ 112 ∨ 142 ≤ floatExp f → encodeTable policy f = encodeArith policy f)

/-- Dual-path equivalence of the encoder, under either NaN policy, and of the two operations, for every float pattern
(spec/40_encoder.md section 3, R64, an inference the spec marks as its own). -/
def Obligations.EncoderPathsAgree : Prop :=
  (∀ (policy : NanNarrowPolicy) (f : FloatBits), encodeTable policy f = encodeArith policy f) ∧
  ∀ (f : FloatBits) (s : State), exec (.encT f) s = exec (.encA f) s

/-- An exponent table whose band ends at 30 instead of 29 gives the same encoder (spec/40_encoder.md section 3, R64: "the
band of `92_eei_decisions.md` D10 changes no encoder output"). -/
def Obligations.WiderElutBandChangesNoEncoding : Prop :=
  ∀ (policy : NanNarrowPolicy) (f : FloatBits),
    encodeWithTable (elutEntryFor 30) policy f = encodeArith policy f

/-- The thresholds of spec/40_encoder.md section 3 (R65 (1) to (4) and (6), inferences the spec marks as its own), on both
paths, for every float that is not a NaN: the sign is kept; from 65520 on, infinity; from 65504 up to it, the largest finite
half; up to 2^-25, zero, and just above it the smallest subnormal; never a NaN. -/
def Obligations.EncoderThresholds : Prop :=
  ∀ (f : FloatBits) (path : ConversionPath), floatIsNan f = false →
    let a := f.toNat % 2 ^ 31
    let sign := f.toNat / 2 ^ 31 * 2 ^ 15
    let r := (fp16Encoder f path).toNat
    r / 2 ^ 15 = f.toNat / 2 ^ 31 ∧
    (0x477FF000 ≤ a → r = sign + 0x7C00) ∧
    (0x477FE000 ≤ a → a ≤ 0x477FEFFF → r = sign + 0x7BFF) ∧
    (a ≤ 0x33000000 → r = sign) ∧
    (a = 0x33000001 → r = sign + 1) ∧
    r % 2 ^ 15 ≤ 0x7C00

/-- Correct rounding (spec/40_encoder.md section 3, R65 (5), an inference the spec marks as its own, over the values of
R14 and R15, log entry 15): for every float below 65520 in magnitude, on both paths, the result is a finite half, no finite
half is nearer, and if another finite half is as near the result's mantissa is even. -/
def Obligations.EncoderGivesTheNearestHalf : Prop :=
  ∀ (f : FloatBits) (path : ConversionPath), f.toNat % 2 ^ 31 < 0x477FF000 →
    let r := fp16Encoder f path
    halfIsFinite r = true ∧
    ∀ h : HalfBits, halfIsFinite h = true →
      |floatNumber f - halfNumber r| ≤ |floatNumber f - halfNumber h| ∧
      (|floatNumber f - halfNumber r| = |floatNumber f - halfNumber h| → halfNumber h ≠ halfNumber r →
        halfMant r % 2 = 0)

/-- Round trip (spec/40_encoder.md section 3, R66, an inference the spec marks as its own): whatever half is decoded, by
either decode operation, both encode operations give it back, zeros, subnormals, infinities and NaNs included. -/
def Obligations.EveryHalfSurvivesTheRoundTrip : Prop :=
  ∀ (h : HalfBits) (s : State) (x : BitVec 16) (i : Instr), i = .decT x h ∨ i = .decA x h →
    ∃ t, exec i s = .next t ∧ EncodesTo t.result h

/-- Under the alternative policy the round trip fails exactly for the NaN patterns whose top mantissa bit is 0
(spec/40_encoder.md section 3, R66, an inference the spec marks as its own). -/
def Obligations.QuietPolicyLosesExactlyNansWithTopBitClear : Prop :=
  ∀ h : HalfBits, encodeArith .quietTrunc (decodeArith h) ≠ h ↔ (halfIsNan h = true ∧ halfMant h / 2 ^ 9 = 0)

/-! ### Decoder -/

/-- R67: a signed half zero widens to the float zero of the same sign; and whatever the class, the result's sign is the
operand's. -/
def Obligations.ZeroWidensToZeroAndSignsAreKept : Prop :=
  (∀ h : HalfBits, halfExp h = 0 → halfMant h = 0 → DecodesTo h (BitVec.ofNat 32 (halfSign h * 2 ^ 31))) ∧
  ∀ h : HalfBits, ∃ f : FloatBits, DecodesTo h f ∧ f.toNat / 2 ^ 31 = halfSign h

/-- A half subnormal widens to a normalized float: with `p` the index of its highest set bit the exponent field is
`p + 103`, in 103 to 112, and the bits below it become the top bits of the mantissa (spec/41_decoder.md section 1, R68). -/
def Obligations.SubnormalWidensToNormalized : Prop :=
  ∀ (h : HalfBits) (p : Nat), halfExp h = 0 → 2 ^ p ≤ halfMant h → halfMant h < 2 ^ (p + 1) →
    p ≤ 9 ∧
    DecodesTo h (BitVec.ofNat 32
      (halfSign h * 2 ^ 31 + (p + 103) * 2 ^ 23 + (halfMant h - 2 ^ p) * 2 ^ (23 - p)))

/-- A normalized half widens by rebiasing its exponent, with its mantissa at float bits 22..13 (spec/41_decoder.md
section 1, R69). -/
def Obligations.NormalWidensByRebiasing : Prop :=
  ∀ h : HalfBits, 1 ≤ halfExp h → halfExp h ≤ 30 →
    DecodesTo h (BitVec.ofNat 32 (halfSign h * 2 ^ 31 + (halfExp h + 112) * 2 ^ 23 + halfMant h * 2 ^ 13))

/-- R70: a half infinity widens to the float infinity of the same sign. -/
def Obligations.InfinityWidensToInfinity : Prop :=
  ∀ h : HalfBits, halfExp h = 31 → halfMant h = 0 →
    DecodesTo h (BitVec.ofNat 32 (halfSign h * 2 ^ 31 + 0x7F800000))

/-- R71: a half NaN widens to a float NaN of the same sign with its payload at float bits 22..13, and no bit is
forced. -/
def Obligations.NanWidensWithItsPayload : Prop :=
  ∀ h : HalfBits, halfExp h = 31 → halfMant h ≠ 0 →
    ∃ f : FloatBits, DecodesTo h f ∧ f.toNat = halfSign h * 2 ^ 31 + 0x7F800000 + halfMant h * 2 ^ 13 ∧
      floatIsNan f = true ∧ (halfMant h / 2 ^ 9 = 0 → f.toNat / 2 ^ 22 % 2 = 0)

/-- Dual-path equivalence of the decoder, at the table, and at the two operations for every pair of ignored fields
(spec/41_decoder.md section 3, R76, an inference the spec marks as its own). -/
def Obligations.DecoderPathsAgree : Prop :=
  (∀ h : HalfBits, lutRead h = decodeArith h) ∧
  ∀ (h : HalfBits) (x y : BitVec 16) (s : State), exec (.decT x h) s = exec (.decA y h) s

/-- Widening is exact (spec/41_decoder.md section 3, R75, an inference the spec marks as its own, over the values of R14
and R15, log entry 15): on both paths the float's value is the half's value, signed zeros, infinities and NaNs included. -/
def Obligations.DecoderIsExact : Prop :=
  ∀ (h : HalfBits) (path : ConversionPath), floatValue (fp16Decoder h path) = halfValue h

/-- Distinct half patterns widen to distinct float patterns (spec/41_decoder.md section 3, R75, an inference the spec
marks as its own). -/
def Obligations.DecoderIsInjective : Prop :=
  ∀ (g h : HalfBits) (path path' : ConversionPath), fp16Decoder g path = fp16Decoder h path' → g = h

/-! ### Classifier -/

/-- R77, R78, R79, R80, R81: ISNEG, ISZERO, ISFINITE and ISNORM complete with the predicate of their rule in
`result[0]`, for every ignored field; ISZERO also in its mask form. -/
def Obligations.SignZeroFiniteNormPredicates : Prop :=
  ∀ (x : BitVec 16) (h : HalfBits),
    AnswersBit (.isneg x h) (h.getLsbD 15) ∧
    AnswersBit (.iszero x h) (decide (halfExp h = 0 ∧ halfMant h = 0)) ∧
    AnswersBit (.iszero x h) (decide (h &&& 0x7FFF#16 = 0)) ∧
    AnswersBit (.isfinite x h) (decide (halfExp h ≠ 31)) ∧
    AnswersBit (.isnorm x h) (decide (halfExp h ≠ 0 ∧ halfExp h ≠ 31))

/-- R82, R83, R84: ISDENORM, ISINF and ISNAN complete with the predicate of their rule in `result[0]`, for every ignored
field; ISINF and ISNAN also in their mask forms. -/
def Obligations.DenormInfNanPredicates : Prop :=
  ∀ (x : BitVec 16) (h : HalfBits),
    AnswersBit (.isdenorm x h) (decide (halfExp h = 0 ∧ halfMant h ≠ 0)) ∧
    AnswersBit (.isinf x h) (decide (halfExp h = 31 ∧ halfMant h = 0)) ∧
    AnswersBit (.isinf x h) (decide (h &&& 0x7FFF#16 = 0x7C00#16)) ∧
    AnswersBit (.isnan x h) (decide (halfExp h = 31 ∧ halfMant h ≠ 0)) ∧
    AnswersBit (.isnan x h) (decide (h &&& 0x7FFF#16 > 0x7C00#16))

/-- The partition of spec/42_classifier.md section 3 (R85, an inference the spec marks as its own): exactly one of ISZERO,
ISDENORM, ISNORM, ISINF and ISNAN holds of a pattern; ISFINITE holds exactly when one of the first three does; and flipping
the sign bit flips ISNEG and no other predicate. -/
def Obligations.ClassesPartitionThePatterns : Prop :=
  ∀ h : HalfBits,
    let c := halfClassifier h
    [c.isZero, c.isDenormalized, c.isNormalized, c.isInfinity, c.isNan].count true = 1 ∧
    (c.isFinite = true ↔ (c.isZero = true ∨ c.isDenormalized = true ∨ c.isNormalized = true)) ∧
    (c.isFinite = true ↔ (c.isInfinity = false ∧ c.isNan = false)) ∧
    halfClassifier (h ^^^ 0x8000#16) = { c with isNegative := !c.isNegative }

/-- The classifier agrees with the decoder (spec/42_classifier.md section 3, R86, an inference the spec marks as its own;
magnitudes by R14 and R15, log entry 15): NaN, infinity, zero, finite and sign by the float's own class; ISDENORM and ISNORM
against the half's range, below and from 2^-14; and no half widens to a float subnormal. -/
def Obligations.ClassifierAgreesWithDecoder : Prop :=
  ∀ h : HalfBits,
    let f := decodeArith h
    let c := halfClassifier h
    c.isNan = floatIsNan f ∧ c.isInfinity = floatIsInfinity f ∧ c.isZero = floatIsZero f ∧
    c.isFinite = floatIsFinite f ∧ c.isNegative = f.getLsbD 31 ∧
    (c.isDenormalized = true ↔
      (floatIsFinite f = true ∧ floatMagnitude f ≠ 0 ∧ floatMagnitude f < (2 : ℚ) ^ (-14 : ℤ))) ∧
    (c.isNormalized = true ↔ (floatIsFinite f = true ∧ (2 : ℚ) ^ (-14 : ℤ) ≤ floatMagnitude f)) ∧
    floatIsSubnormal f = false

/-! ### Tables -/

/-- R25, R87: ELUT.RD completes for every key and ignored field with the entry of R25: the sign above the rebiased
exponent for float exponents 113 to 141 (half exponents 1 to 29), the sentinel 0 for every other. -/
def Obligations.ElutRdReadsTheEntry : Prop :=
  ∀ (x : BitVec 23) (k : ElutKey) (s : State),
    let sign := k.toNat / 2 ^ 8
    let e := k.toNat % 2 ^ 8
    exec (.elutRd x k) s = .next { s with
      result := BitVec.ofNat 32 (if 113 ≤ e ∧ e ≤ 141 then sign * 2 ^ 15 + (e - 112) * 2 ^ 10 else 0)
      illegal := false }

/-- R24: an entry is either a half fragment `{s, e, 10'b0}` with 1 ≤ e ≤ 29, or the sentinel 0. -/
def Obligations.ElutEntriesAreFragmentsOrTheSentinel : Prop :=
  ∀ k : ElutKey, elutRead k = 0 ∨
    ∃ s e : Nat, s < 2 ∧ 1 ≤ e ∧ e ≤ 29 ∧ (elutRead k).toNat = s * 2 ^ 15 + e * 2 ^ 10

/-- The golden table (spec/20_memory.md section 2, R27, an inference the spec marks as its own): the listing of all 512
entries in index order. -/
def Obligations.ElutIsTheGoldenTable : Prop :=
  (List.range 512).map (fun k => (elutRead (BitVec.ofNat 9 k)).toNat) =
    List.replicate 0x71 0 ++ (List.range 29).map (fun i => (i + 1) * 2 ^ 10) ++
    List.replicate (0x171 - 0x8E) 0 ++ (List.range 29).map (fun i => 0x8000 + (i + 1) * 2 ^ 10) ++
    List.replicate (0x200 - 0x18E) 0

/-- The two halves of the decode table (spec/20_memory.md section 3, R28; spec/43_tables.md section 2, R89): every
negative-sign entry is its positive-sign entry with the sign bit added. -/
def Obligations.LutHalvesDifferBySign : Prop :=
  ∀ i : Nat, i < 0x8000 →
    (lutRead (BitVec.ofNat 16 (0x8000 + i))).toNat = (lutRead (BitVec.ofNat 16 i)).toNat + 2 ^ 31

/-! ### Assembler -/

/-- The operand rule of spec/30_encoding.md section 5 (R47): an operation whose operand fits its form's width assembles to
the word of that operation with the operand zero-extended in `arg`, a well-formed instruction; a wider operand is refused. -/
def Obligations.AssemblerPlacesFittingOperands : Prop :=
  ∀ (m : Mnemonic) (n : Nat),
    let width := if m = .encT ∨ m = .encA then 32 else if m = .elutRd then 9 else 16
    (n < 2 ^ width → ∃ (w : CommandWord) (i : Instr),
      assemble (.operation m n) = .ok w ∧ (commandArg w).toNat = n ∧ decode w = .ok i ∧
      i.mnemonic = m ∧ i.WellFormed) ∧
    (2 ^ width ≤ n → assemble (.operation m n) = .error (.operandTooWide m n))

/-- R48: the pseudo-instructions' expansions, and a read of fp16_lut at index X is exactly the table decoder. -/
def Obligations.PseudoInstructionsExpand : Prop :=
  ∀ n : Nat,
    assemble (.pseudo .enc n) = assemble (.operation .encT n) ∧
    assemble (.pseudo .dec n) = assemble (.operation .decT n) ∧
    assemble (.pseudo .lutRd n) = assemble (.operation .decT n) ∧
    ∀ (x : BitVec 16) (h : HalfBits) (s : State),
      exec (.decT x h) s = .next { s with result := lutRead h, illegal := false }
end

