-- ==== Sys2Proof/Laws/Fields.lean ====
section
/-!
SUPPORT. The fields of a half and of a float pattern: their ranges, the pattern they make up, and the fields of a
pattern built from fields.
-/
namespace Sys2Proof.Machine

theorem bitField_eq {w : Nat} (x : BitVec w) (hi lo : Nat) :
    bitField x hi lo = x.toNat / 2 ^ lo % 2 ^ (hi - lo + 1) := by
  rw [bitField, Nat.shiftRight_eq_div_pow]

theorem halfSign_eq (h : HalfBits) : halfSign h = h.toNat / 2 ^ 15 % 2 := bitField_eq h 15 15
theorem halfExp_eq (h : HalfBits) : halfExp h = h.toNat / 2 ^ 10 % 32 := bitField_eq h 14 10
theorem halfMant_eq (h : HalfBits) : halfMant h = h.toNat % 1024 := by
  simpa [halfMant] using bitField_eq h 9 0
theorem floatSign_eq (f : FloatBits) : floatSign f = f.toNat / 2 ^ 31 % 2 := bitField_eq f 31 31
theorem floatExp_eq (f : FloatBits) : floatExp f = f.toNat / 2 ^ 23 % 256 := bitField_eq f 30 23
theorem floatMant_eq (f : FloatBits) : floatMant f = f.toNat % 8388608 := by
  simpa [floatMant] using bitField_eq f 22 0

theorem halfSign_lt (h : HalfBits) : halfSign h < 2 := by rw [halfSign_eq]; omega
theorem halfExp_lt (h : HalfBits) : halfExp h < 32 := by rw [halfExp_eq]; omega
theorem halfMant_lt (h : HalfBits) : halfMant h < 1024 := by rw [halfMant_eq]; omega
theorem floatSign_lt (f : FloatBits) : floatSign f < 2 := by rw [floatSign_eq]; omega
theorem floatExp_lt (f : FloatBits) : floatExp f < 256 := by rw [floatExp_eq]; omega
theorem floatMant_lt (f : FloatBits) : floatMant f < 8388608 := by rw [floatMant_eq]; omega

/-- A half pattern is its three fields (R10). -/
theorem half_toNat (h : HalfBits) :
    h.toNat = halfSign h * 2 ^ 15 + halfExp h * 2 ^ 10 + halfMant h := by
  have := h.isLt
  rw [halfSign_eq, halfExp_eq, halfMant_eq]; omega

/-- A float pattern is its three fields (R12). -/
theorem float_toNat (f : FloatBits) :
    f.toNat = floatSign f * 2 ^ 31 + floatExp f * 2 ^ 23 + floatMant f := by
  have := f.isLt
  rw [floatSign_eq, floatExp_eq, floatMant_eq]; omega

/-- The fields of a half pattern built from fields. -/
theorem half_fields_ofNat {s e m : Nat} (hs : s < 2) (he : e < 32) (hm : m < 1024) :
    halfSign (BitVec.ofNat 16 (s * 2 ^ 15 + e * 2 ^ 10 + m)) = s ∧
    halfExp (BitVec.ofNat 16 (s * 2 ^ 15 + e * 2 ^ 10 + m)) = e ∧
    halfMant (BitVec.ofNat 16 (s * 2 ^ 15 + e * 2 ^ 10 + m)) = m := by
  simp only [halfSign_eq, halfExp_eq, halfMant_eq, BitVec.toNat_ofNat]
  omega

/-- The fields of a float pattern built from fields. -/
theorem float_fields_ofNat {s e m : Nat} (hs : s < 2) (he : e < 256) (hm : m < 8388608) :
    floatSign (BitVec.ofNat 32 (s * 2 ^ 31 + e * 2 ^ 23 + m)) = s ∧
    floatExp (BitVec.ofNat 32 (s * 2 ^ 31 + e * 2 ^ 23 + m)) = e ∧
    floatMant (BitVec.ofNat 32 (s * 2 ^ 31 + e * 2 ^ 23 + m)) = m := by
  simp only [floatSign_eq, floatExp_eq, floatMant_eq, BitVec.toNat_ofNat]
  omega

/-- Two half patterns with the same fields are the same pattern. -/
theorem half_ext {a b : HalfBits} (hs : halfSign a = halfSign b) (he : halfExp a = halfExp b)
    (hm : halfMant a = halfMant b) : a = b := by
  apply BitVec.eq_of_toNat_eq
  rw [half_toNat a, half_toNat b, hs, he, hm]

end Sys2Proof.Machine
end

