-- ==== Sys2Proof/Laws/Decoder.lean ====
section
/-!
SUPPORT. The decoder's pieces: placing the sign is an addition, each case as a sum of fields, and the whole reference
decoder as one.
-/
namespace Sys2Proof.Machine

/-- `sf | x` is a sum where `x < 0x80000000` (R67). -/
theorem sign31_or (s : Nat) {x : Nat} (hx : x < 2 ^ 31) : s <<< 31 ||| x = s * 2 ^ 31 + x := by
  rw [← Nat.shiftLeft_eq, Nat.shiftLeft_add_eq_or_of_lt hx]

/-- `msb` finds the highest set bit (R7). -/
theorem msb_spec {v : Nat} (hv : v ≠ 0) : 2 ^ msb v ≤ v ∧ v < 2 ^ (msb v + 1) :=
  ⟨Nat.log2_self_le hv, Nat.lt_log2_self⟩

/-- `msb` is the only such index (R7). -/
theorem msb_eq {v p : Nat} (hlo : 2 ^ p ≤ v) (hhi : v < 2 ^ (p + 1)) : msb v = p := by
  have hv : v ≠ 0 := by have := Nat.two_pow_pos p; omega
  obtain ⟨h1, h2⟩ := msb_spec hv
  have ha := (Nat.pow_lt_pow_iff_right (a := 2) (by decide)).1 (lt_of_le_of_lt h1 hhi)
  have hb := (Nat.pow_lt_pow_iff_right (a := 2) (by decide)).1 (lt_of_le_of_lt hlo h2)
  omega

theorem msb_le {m : Nat} (hm : m < 1024) : msb m ≤ 9 := by
  by_cases h0 : m = 0
  · subst h0; decide
  · have h1 := (msb_spec h0).1
    have := (Nat.pow_lt_pow_iff_right (a := 2) (by decide)).1
      (lt_of_le_of_lt h1 (show m < 2 ^ 10 by omega))
    omega

/-- The half subnormal case as a sum of fields: the leading 1 is dropped, the bits below it widen (R68). -/
theorem decodeSubnormal_eq {m : Nat} (h0 : m ≠ 0) (hm : m < 1024) :
    decodeSubnormal m = (msb m + 103) * 2 ^ 23 + (m - 2 ^ msb m) * 2 ^ (23 - msb m) ∧
      (m - 2 ^ msb m) * 2 ^ (23 - msb m) < 2 ^ 23 := by
  obtain ⟨hlo, hhi⟩ := msb_spec h0
  have hp := msb_le hm
  have hsplit : 2 ^ msb m * 2 ^ (23 - msb m) = 2 ^ 23 := by
    rw [← Nat.pow_add, Nat.add_sub_cancel' (by omega)]
  have hlt : (m - 2 ^ msb m) * 2 ^ (23 - msb m) < 2 ^ 23 := by
    rw [← hsplit]
    exact Nat.mul_lt_mul_of_pos_right (by rw [Nat.pow_succ] at hhi; omega) (Nat.two_pow_pos _)
  have hmask : (m <<< (23 - msb m)) &&& 0x7FFFFF = (m - 2 ^ msb m) * 2 ^ (23 - msb m) := by
    have hm' : m * 2 ^ (23 - msb m) = (m - 2 ^ msb m) * 2 ^ (23 - msb m) + 2 ^ 23 := by
      rw [← hsplit, ← Nat.add_mul, Nat.sub_add_cancel hlo]
    rw [show (0x7FFFFF : Nat) = 2 ^ 23 - 1 from rfl, Nat.and_two_pow_sub_one_eq_mod, Nat.shiftLeft_eq, hm',
      Nat.add_mod_right, Nat.mod_eq_of_lt hlt]
  refine ⟨?_, hlt⟩
  simp only [decodeSubnormal]
  have hor := Nat.shiftLeft_add_eq_or_of_lt (i := 23) (by omega) (msb m + 103) (b := (m - 2 ^ msb m) * 2 ^ (23 - msb m))
  rw [hmask, ← hor, Nat.shiftLeft_eq]

/-- The normalized case as a sum of fields (R69). -/
theorem decodeNormal_eq {e m : Nat} (hm : m < 1024) :
    decodeNormal e m = (e + 112) * 2 ^ 23 + m * 2 ^ 13 := by
  have hor := Nat.shiftLeft_add_eq_or_of_lt (i := 23) (b := m <<< 13) (by rw [Nat.shiftLeft_eq]; omega) (e + 112)
  rw [decodeNormal, ← hor, Nat.shiftLeft_eq, Nat.shiftLeft_eq]

/-- The NaN case as a sum of fields (R71). -/
theorem decodeNan_eq {m : Nat} (hm : m < 1024) : decodeNan m = 255 * 2 ^ 23 + m * 2 ^ 13 := by
  have hor := Nat.shiftLeft_add_eq_or_of_lt (i := 23) (b := m <<< 13) (by rw [Nat.shiftLeft_eq]; omega) 255
  have hc : (0x7F800000 : Nat) = 255 <<< 23 := by decide
  rw [decodeNan, hc, ← hor, Nat.shiftLeft_eq, Nat.shiftLeft_eq]

/-- What the reference decoder puts in the float exponent (R67 to R71). -/
def decodeExp (e m : Nat) : Nat :=
  if e = 0 ∧ m = 0 then 0 else if e = 0 then msb m + 103 else if e = 31 then 255 else e + 112

/-- What the reference decoder puts in the float mantissa (R67 to R71). -/
def decodeMant (e m : Nat) : Nat :=
  if e = 0 ∧ m = 0 then 0 else if e = 0 then (m - 2 ^ msb m) * 2 ^ (23 - msb m) else m * 2 ^ 13

theorem decodeExp_lt {e m : Nat} (he : e < 32) (hm : m < 1024) : decodeExp e m < 256 := by
  have := msb_le hm
  unfold decodeExp; split_ifs <;> omega

theorem decodeMant_lt {e m : Nat} (hm : m < 1024) : decodeMant e m < 8388608 := by
  unfold decodeMant
  split_ifs with h1 h2
  · omega
  · exact (decodeSubnormal_eq (by omega) hm).2
  · omega

/-- `DecodeArith(h)` is the sign, the exponent and the mantissa its case gives (R72). -/
theorem decodeArith_eq (h : HalfBits) :
    decodeArith h = BitVec.ofNat 32
      (halfSign h * 2 ^ 31 + decodeExp (halfExp h) (halfMant h) * 2 ^ 23 + decodeMant (halfExp h) (halfMant h)) := by
  have he := halfExp_lt h
  have hm := halfMant_lt h
  have hE := decodeExp_lt he hm
  have hM := decodeMant_lt (e := halfExp h) hm
  have hx : decodeExp (halfExp h) (halfMant h) * 2 ^ 23 + decodeMant (halfExp h) (halfMant h) < 2 ^ 31 := by omega
  rw [Nat.add_assoc, ← sign31_or _ hx]
  simp only [decodeArith, decodeExp, decodeMant]
  congr 1
  by_cases h0 : halfExp h = 0 ∧ halfMant h = 0
  · simp [h0]
  · by_cases h1 : halfExp h = 0
    · have hm0 : halfMant h ≠ 0 := fun c => h0 ⟨h1, c⟩
      simp [h1, hm0, (decodeSubnormal_eq hm0 hm).1]
    · by_cases h2 : halfExp h = 31
      · by_cases h3 : halfMant h = 0
        · simp [h2, h3]
        · simp [h2, h3, decodeNan_eq hm]
      · simp [h1, h2, decodeNormal_eq hm]

/-- The fields of `DecodeArith(h)`. -/
theorem decodeArith_fields (h : HalfBits) :
    floatSign (decodeArith h) = halfSign h ∧
    floatExp (decodeArith h) = decodeExp (halfExp h) (halfMant h) ∧
    floatMant (decodeArith h) = decodeMant (halfExp h) (halfMant h) := by
  rw [decodeArith_eq]
  exact float_fields_ofNat (halfSign_lt h) (decodeExp_lt (halfExp_lt h) (halfMant_lt h))
    (decodeMant_lt (halfMant_lt h))

end Sys2Proof.Machine
end

