-- ==== Sys2Proof/Laws/Encoder.lean ====
section
/-!
SUPPORT. The encoder's pieces: placing the sign is an addition, the range of each case, and the whole reference
encoder and exponent table as sums of fields.
-/
namespace Sys2Proof.Machine

/-- `sh | x` is a sum where `x < 0x8000` (R50). -/
theorem sign15_or (s : Nat) {x : Nat} (hx : x < 2 ^ 15) : s <<< 15 ||| x = s * 2 ^ 15 + x := by
  rw [← Nat.shiftLeft_eq, Nat.shiftLeft_add_eq_or_of_lt hx]

theorem roundMant_eq (m : Nat) : roundMant m = (m + 4095 + m / 8192 % 2) / 8192 := by
  simp only [roundMant, Nat.shiftRight_eq_div_pow]

theorem roundMant_le {m : Nat} (hm : m < 8388608) : roundMant m ≤ 1024 := by
  rw [roundMant_eq]; omega

theorem nanPayload_lt (policy : NanNarrowPolicy) {m : Nat} (hm : m < 8388608) : nanPayload policy m < 1024 := by
  have h : m >>> 13 < 2 ^ 10 := by rw [Nat.shiftRight_eq_div_pow]; omega
  cases policy with
  | truncSetLsb => simp only [nanPayload]; split <;> omega
  | quietTrunc =>
    have := Nat.or_lt_two_pow (n := 10) h (y := 0x200) (by norm_num)
    simpa only [nanPayload] using this

theorem encodeNormal_le {e m : Nat} (he : e ≤ 142) (hm : m < 8388608) : encodeNormal e m ≤ 0x7C00 := by
  have := roundMant_le hm
  simp only [encodeNormal, Nat.shiftLeft_eq]; omega

/-- The implicit leading 1 is above the mantissa (R57). -/
theorem implicitOne_or {m : Nat} (hm : m < 8388608) : 0x800000 ||| m = 8388608 + m := by
  have h := Nat.shiftLeft_add_eq_or_of_lt (i := 23) (b := m) (by omega) 1
  simpa [Nat.shiftLeft_eq] using h.symm

/-- The half subnormal case as division, remainder and comparison (R57). -/
theorem encodeSubnormal_eq {e m : Nat} (hm : m < 8388608) :
    encodeSubnormal e m =
      (8388608 + m) / 2 ^ (126 - e) +
        (if (8388608 + m) % 2 ^ (126 - e) > 2 ^ (126 - e - 1) ∨
            ((8388608 + m) % 2 ^ (126 - e) = 2 ^ (126 - e - 1) ∧ (8388608 + m) / 2 ^ (126 - e) % 2 = 1)
          then 1 else 0) := by
  simp only [encodeSubnormal, implicitOne_or hm, Nat.shiftRight_eq_div_pow, Nat.shiftLeft_eq, one_mul,
    Nat.and_two_pow_sub_one_eq_mod]
  split <;> rfl

theorem encodeSubnormal_le {e m : Nat} (he : e ≤ 112) (hm : m < 8388608) : encodeSubnormal e m ≤ 1024 := by
  have hp : 2 ^ 14 ≤ 2 ^ (126 - e) := Nat.pow_le_pow_right (by decide) (by omega)
  have hd : (8388608 + m) / 2 ^ (126 - e) ≤ (8388608 + m) / 2 ^ 14 := Nat.div_le_div_left hp (by decide)
  rw [encodeSubnormal_eq hm]
  split <;> omega

/-- What the reference encoder puts below the sign bit (R52 to R58). -/
def encodeMagnitude (policy : NanNarrowPolicy) (e m : Nat) : Nat :=
  if e = 255 ∧ m ≠ 0 then 0x7C00 + nanPayload policy m
  else if e = 255 then 0x7C00
  else if e ≥ 143 then 0x7C00
  else if e ≥ 113 then encodeNormal e m
  else if e ≥ 102 then encodeSubnormal e m
  else 0

theorem encodeMagnitude_lt (policy : NanNarrowPolicy) {e m : Nat} (hm : m < 8388608) :
    encodeMagnitude policy e m < 2 ^ 15 := by
  have h1 := nanPayload_lt policy hm
  unfold encodeMagnitude
  split_ifs with _ _ _ h4 h5
  · omega
  · omega
  · omega
  · have := encodeNormal_le (e := e) (by omega) hm; omega
  · have := encodeSubnormal_le (e := e) (by omega) hm; omega
  · omega

/-- `EncodeArith(f)` is the sign above the magnitude its case gives (R59). -/
theorem encodeArith_toNat (policy : NanNarrowPolicy) (f : FloatBits) :
    (encodeArith policy f).toNat =
      floatSign f * 2 ^ 15 + encodeMagnitude policy (floatExp f) (floatMant f) := by
  have hs := floatSign_lt f
  have hm := floatMant_lt f
  have hlt := encodeMagnitude_lt policy (e := floatExp f) hm
  have hnan : 0x7C00 ||| nanPayload policy (floatMant f) = 0x7C00 + nanPayload policy (floatMant f) := by
    have h := Nat.shiftLeft_add_eq_or_of_lt (i := 10) (nanPayload_lt policy hm) 31
    simpa [Nat.shiftLeft_eq] using h.symm
  have key : (encodeArith policy f) = BitVec.ofNat 16
      (floatSign f <<< 15 ||| encodeMagnitude policy (floatExp f) (floatMant f)) := by
    simp only [encodeArith, encodeMagnitude]
    congr 1
    split_ifs <;> simp [hnan, Nat.or_assoc]
  rw [key, sign15_or _ hlt, BitVec.toNat_ofNat, Nat.mod_eq_of_lt (by omega)]

/-- The encoder's key is the sign and exponent of the float (R26). -/
theorem elutKeyOf_toNat (f : FloatBits) : (elutKeyOf f).toNat = floatSign f * 256 + floatExp f := by
  have := f.isLt
  simp only [elutKeyOf, BitVec.toNat_ofNat, bitField_eq, floatSign_eq, floatExp_eq]; omega

/-- An entry of an exponent table whose band ends at most at 30, as a sum of fields (R25). -/
theorem elutEntryFor_toNat {high : Nat} (hh : high ≤ 30) (k : ElutKey) :
    (elutEntryFor high k).toNat =
      if 113 ≤ k.toNat % 256 ∧ k.toNat % 256 ≤ 112 + high
      then k.toNat / 256 * 2 ^ 15 + (k.toNat % 256 - 112) * 2 ^ 10 else 0 := by
  have hk := k.isLt
  have hs : bitField k 8 8 = k.toNat / 256 := by rw [bitField_eq]; omega
  have he : bitField k 7 0 = k.toNat % 256 := by rw [bitField_eq]; omega
  simp only [elutEntryFor, hs, he, elutBandLow, Config.floatBias, Config.halfBias]
  by_cases h : 113 ≤ k.toNat % 256 ∧ k.toNat % 256 ≤ 112 + high
  · rw [if_pos h, if_pos (by omega)]
    have hn : ((k.toNat % 256 : Nat) - (127 : Nat) + (15 : Nat) : Int).toNat = k.toNat % 256 - 112 := by omega
    have hlt : (k.toNat % 256 - 112) * 2 ^ 10 < 2 ^ 15 := by omega
    have hor := Nat.shiftLeft_add_eq_or_of_lt hlt (k.toNat / 256)
    rw [hn, BitVec.toNat_ofNat, Nat.shiftLeft_eq (k.toNat % 256 - 112), ← hor, Nat.shiftLeft_eq]
    omega
  · rw [if_neg h, if_neg (by omega)]; rfl

end Sys2Proof.Machine
end

