-- ==== Sys2Proof/Laws/Encoding.lean ====
section
/-!
SUPPORT. The command word: splitting and joining its two fields, and the operand forms.
-/
namespace Sys2Proof

@[simp] theorem commandOp_commandWord (op : OpBits) (arg : ArgBits) : commandOp (commandWord op arg) = op :=
  BitVec.extractLsb'_append_eq_left

@[simp] theorem commandArg_commandWord (op : OpBits) (arg : ArgBits) : commandArg (commandWord op arg) = arg :=
  BitVec.extractLsb'_append_eq_right

/-- A command word is its two fields (R41). -/
@[simp] theorem commandWord_fields (w : CommandWord) : commandWord (commandOp w) (commandArg w) = w := by
  apply BitVec.eq_of_toNat_eq
  have := w.isLt
  simp only [commandWord, commandOp, commandArg, BitVec.toNat_append, BitVec.extractLsb'_toNat,
    Nat.shiftRight_eq_div_pow]
  rw [← Nat.shiftLeft_add_eq_or_of_lt (Nat.mod_lt _ (by decide)), Nat.shiftLeft_eq]
  omega

@[simp] theorem operandH_append (x : BitVec 16) (h : HalfBits) : operandH (x ++ h) = h :=
  BitVec.extractLsb'_append_eq_right

@[simp] theorem ignoredH_append (x : BitVec 16) (h : HalfBits) : ignoredH (x ++ h) = x :=
  BitVec.extractLsb'_append_eq_left

@[simp] theorem operandK_append (x : BitVec 23) (k : ElutKey) : operandK (x ++ k) = k :=
  BitVec.extractLsb'_append_eq_right

@[simp] theorem ignoredK_append (x : BitVec 23) (k : ElutKey) : ignoredK (x ++ k) = x :=
  BitVec.extractLsb'_append_eq_left

/-- An argument is its ignored field above its half operand (R42). -/
@[simp] theorem append_formH (arg : ArgBits) : ignoredH arg ++ operandH arg = arg := by
  apply BitVec.eq_of_toNat_eq
  have := arg.isLt
  simp only [ignoredH, operandH, BitVec.toNat_append, BitVec.extractLsb'_toNat, Nat.shiftRight_eq_div_pow]
  rw [← Nat.shiftLeft_add_eq_or_of_lt (Nat.mod_lt _ (by decide)), Nat.shiftLeft_eq]
  omega

/-- An argument is its ignored field above its key operand (R42). -/
@[simp] theorem append_formK (arg : ArgBits) : ignoredK arg ++ operandK arg = arg := by
  apply BitVec.eq_of_toNat_eq
  have := arg.isLt
  simp only [ignoredK, operandK, BitVec.toNat_append, BitVec.extractLsb'_toNat, Nat.shiftRight_eq_div_pow]
  rw [← Nat.shiftLeft_add_eq_or_of_lt (Nat.mod_lt _ (by decide)), Nat.shiftLeft_eq]
  omega

/-- The opcode map and the operations' opcodes are the same table (R43). -/
@[simp] theorem operationOf_opcodeOf (m : Mnemonic) : operationOf (opcodeOf m) = some m := by
  cases m <;> rfl

/-- An `op` value selects no operation exactly when it is reserved (R44). -/
theorem operationOf_eq_none_iff (op : OpBits) : operationOf op = none ↔ Machine.isReservedOp op = true := by
  revert op; decide

/-- An `op` value that selects an operation is that operation's opcode (R43). -/
theorem opcodeOf_of_operationOf {op : OpBits} {m : Mnemonic} (h : operationOf op = some m) : opcodeOf m = op := by
  revert op m; decide

end Sys2Proof
end

