-- ==== Sys2Proof/Laws/PerInstr.lean ====
section
/-!
SUPPORT. The statements made of every instruction as syntax, one lemma per constructor (LAWS.json).
-/
namespace Sys2Proof.Laws.OpField

/-- The encoded word holds the instruction's opcode in bits 35..32 and its argument in bits 31..0 (R41, R43). -/
def Statement (i : Instr) : Prop :=
  commandOp (encode i) = opcodeOf i.mnemonic ∧ commandArg (encode i) = argumentOf i

theorem encT (f : FloatBits) : Statement (.encT f) := by simp [Statement, encode]
theorem encA (f : FloatBits) : Statement (.encA f) := by simp [Statement, encode]
theorem decT (x : BitVec 16) (h : HalfBits) : Statement (.decT x h) := by simp [Statement, encode]
theorem decA (x : BitVec 16) (h : HalfBits) : Statement (.decA x h) := by simp [Statement, encode]
theorem elutRd (x : BitVec 23) (k : ElutKey) : Statement (.elutRd x k) := by simp [Statement, encode]
theorem isneg (x : BitVec 16) (h : HalfBits) : Statement (.isneg x h) := by simp [Statement, encode]
theorem iszero (x : BitVec 16) (h : HalfBits) : Statement (.iszero x h) := by simp [Statement, encode]
theorem isfinite (x : BitVec 16) (h : HalfBits) : Statement (.isfinite x h) := by simp [Statement, encode]
theorem isnorm (x : BitVec 16) (h : HalfBits) : Statement (.isnorm x h) := by simp [Statement, encode]
theorem isdenorm (x : BitVec 16) (h : HalfBits) : Statement (.isdenorm x h) := by simp [Statement, encode]
theorem isinf (x : BitVec 16) (h : HalfBits) : Statement (.isinf x h) := by simp [Statement, encode]
theorem isnan (x : BitVec 16) (h : HalfBits) : Statement (.isnan x h) := by simp [Statement, encode]

end Sys2Proof.Laws.OpField
end

