-- ==== Sys2Proof/Laws/State.lean ====
section
/-!
SUPPORT. One lemma per field and update of the state, true by rfl, so that no proof unfolds a record update.
-/
namespace Sys2Proof.Machine

namespace State

variable (s : State) (r : Request) (rest : List Request) (v : ResultBits) (b : Bool) (q : Nat)

@[simp] theorem accept_cmdOp : (s.accept r rest).cmdOp = r.op := rfl
@[simp] theorem accept_cmdArg : (s.accept r rest).cmdArg = r.arg := rfl
@[simp] theorem accept_result : (s.accept r rest).result = s.result := rfl
@[simp] theorem accept_illegal : (s.accept r rest).illegal = s.illegal := rfl
@[simp] theorem accept_pending : (s.accept r rest).pending = rest := rfl
@[simp] theorem accept_answers : (s.accept r rest).answers = s.answers := rfl

@[simp] theorem drive_cmdOp : (s.drive v b).cmdOp = s.cmdOp := rfl
@[simp] theorem drive_cmdArg : (s.drive v b).cmdArg = s.cmdArg := rfl
@[simp] theorem drive_result : (s.drive v b).result = v := rfl
@[simp] theorem drive_illegal : (s.drive v b).illegal = b := rfl
@[simp] theorem drive_pending : (s.drive v b).pending = s.pending := rfl
@[simp] theorem drive_answers : (s.drive v b).answers = s.answers := rfl

@[simp] theorem takeAnswer_cmdOp : (s.takeAnswer q).cmdOp = s.cmdOp := rfl
@[simp] theorem takeAnswer_cmdArg : (s.takeAnswer q).cmdArg = s.cmdArg := rfl
@[simp] theorem takeAnswer_result : (s.takeAnswer q).result = s.result := rfl
@[simp] theorem takeAnswer_illegal : (s.takeAnswer q).illegal = s.illegal := rfl
@[simp] theorem takeAnswer_pending : (s.takeAnswer q).pending = s.pending := rfl
@[simp] theorem takeAnswer_answers :
    (s.takeAnswer q).answers = s.answers ++ [⟨q, s.result, s.illegal⟩] := rfl

@[simp] theorem present_cmdOp : (s.present r).cmdOp = s.cmdOp := rfl
@[simp] theorem present_cmdArg : (s.present r).cmdArg = s.cmdArg := rfl
@[simp] theorem present_result : (s.present r).result = s.result := rfl
@[simp] theorem present_illegal : (s.present r).illegal = s.illegal := rfl
@[simp] theorem present_pending : (s.present r).pending = r :: s.pending := rfl
@[simp] theorem present_answers : (s.present r).answers = s.answers := rfl

@[simp] theorem loadProgram_pending (ws : List CommandWord) :
    (s.loadProgram q ws).pending = s.pending ++ ws.map (requestOf q) := rfl
@[simp] theorem loadProgram_answers (ws : List CommandWord) :
    (s.loadProgram q ws).answers = s.answers := rfl

end State

end Sys2Proof.Machine
end

