-- ==== Sys2Proof/Laws/Step.lean ====
section
/-!
SUPPORT. What the shared operations, `exec` and `step` can do, each said once.
-/
namespace Sys2Proof.Machine

/-- The value an instruction drives on `result`: a function of the instruction alone. -/
def resultOf : Instr → ResultBits
  | .encT f => packHalf (fp16Encoder f .table)
  | .encA f => packHalf (fp16Encoder f .arithmetic)
  | .decT _ h => packFloat (fp16Decoder h .table)
  | .decA _ h => packFloat (fp16Decoder h .arithmetic)
  | .elutRd _ k => packEntry (elutLookup k)
  | .isneg _ h => packPredicate (halfIsNegative h)
  | .iszero _ h => packPredicate (halfIsZero h)
  | .isfinite _ h => packPredicate (halfIsFinite h)
  | .isnorm _ h => packPredicate (halfIsNormalized h)
  | .isdenorm _ h => packPredicate (halfIsDenormalized h)
  | .isinf _ h => packPredicate (halfIsInfinity h)
  | .isnan _ h => packPredicate (halfIsNan h)

/-- Every instruction drives its result and `illegal = 0`, and does nothing else. -/
theorem exec_eq (i : Instr) (s : State) : exec i s = .next (s.drive (resultOf i) false) := by
  cases i <;> rfl

theorem packPredicate_eq (b : Bool) : packPredicate b = if b then 1 else 0 := by cases b <;> rfl

theorem respond_of_decode {w : CommandWord} {i : Instr} (h : decode w = .ok i) (s : State) :
    respond w s = exec i s := by
  simp only [respond, h]

theorem respond_of_reject {w : CommandWord} {e : DecodeError} (h : decode w = .error e) (s : State) :
    respond w s = .fault (.illegalOp (s.drive 0 true)) := by
  simp only [respond, h, raiseIllegalOp]

/-- Whether the decoder accepts a command word depends on its `op` alone (R43, R44). -/
theorem decode_commandWord (op : OpBits) (arg : ArgBits) :
    (isReservedOp op = true ∧ decode (commandWord op arg) = .error (.reservedOp op)) ∨
    (isReservedOp op = false ∧ ∃ m, operationOf op = some m ∧
      decode (commandWord op arg) = .ok (instrOf m arg)) := by
  rcases h : operationOf op with _ | m
  · exact .inl ⟨(operationOf_eq_none_iff op).1 h, by simp [decode, h]⟩
  · refine .inr ⟨?_, m, rfl, by simp [decode, h]⟩
    have hn := (operationOf_eq_none_iff op).not.1 (by simp [h])
    simpa using hn

theorem step_nil {s : State} (h : s.pending = []) : step s = .refused .noCommandPending := by
  simp only [step, h]

theorem step_cons {s : State} {r : Request} {rest : List Request} (h : s.pending = r :: rest) :
    step s = deliver r.requester (respond (commandWord r.op r.arg) (s.accept r rest)) := by
  simp only [step, h]

/-- The state after a request is answered, as a function of the state before it. -/
def stateAfter (s : State) (r : Request) (rest : List Request) : State :=
  ((s.accept r rest).drive (outputs r.op r.arg).result (outputs r.op r.arg).illegal).takeAnswer r.requester

theorem outputs_of_reserved {op : OpBits} (h : isReservedOp op = true) (arg : ArgBits) :
    outputs op arg = ⟨0, true⟩ := by
  rcases decode_commandWord op arg with ⟨_, hd⟩ | ⟨hf, _⟩
  · simp [outputs, respond_of_reject hd, blockState]
  · simp [h] at hf

theorem outputs_of_operation {op : OpBits} {m : Mnemonic} (h : operationOf op = some m) (arg : ArgBits) :
    outputs op arg = ⟨resultOf (instrOf m arg), false⟩ := by
  have hd : decode (commandWord op arg) = .ok (instrOf m arg) := by simp [decode, h]
  simp [outputs, respond_of_decode hd, exec_eq, blockState]

/-- Everything a step with a pending command can do: an operation is answered by a next state, a reserved one by
IllegalOp, and either way the state after is `stateAfter`. -/
theorem step_cases {s : State} {r : Request} {rest : List Request} (h : s.pending = r :: rest) :
    (isReservedOp r.op = false ∧ (outputs r.op r.arg).illegal = false ∧ step s = .next (stateAfter s r rest)) ∨
    (isReservedOp r.op = true ∧ outputs r.op r.arg = ⟨0, true⟩ ∧
      step s = .fault (.illegalOp (stateAfter s r rest))) := by
  rcases decode_commandWord r.op r.arg with ⟨hr, hd⟩ | ⟨hr, m, hm, hd⟩
  · have ho := outputs_of_reserved hr r.arg
    exact .inr ⟨hr, ho, by rw [step_cons h, respond_of_reject hd]; simp [deliver, stateAfter, ho]⟩
  · have ho := outputs_of_operation hm r.arg
    exact .inl ⟨hr, by rw [ho], by
      rw [step_cons h, respond_of_decode hd, exec_eq]; simp [deliver, stateAfter, ho]⟩

/-- The block state after a step with a pending command. -/
theorem blockState_step {s : State} {r : Request} {rest : List Request} (h : s.pending = r :: rest) :
    blockState (step s) = some (stateAfter s r rest) := by
  rcases step_cases h with ⟨_, _, hs⟩ | ⟨_, _, hs⟩ <;> simp [hs, blockState]

@[simp] theorem stateAfter_pending (s : State) (r : Request) (rest : List Request) :
    (stateAfter s r rest).pending = rest := rfl

@[simp] theorem stateAfter_answers (s : State) (r : Request) (rest : List Request) :
    (stateAfter s r rest).answers = s.answers ++ [answerTo r] := rfl

end Sys2Proof.Machine
end

