-- ==== Sys2Proof/Laws/Values.lean ====
section
/-!
SUPPORT. The magnitudes of R14 and R15 as natural numbers of the smallest subnormal, so that statements about values
become statements about natural numbers.
-/
namespace Sys2Proof.Machine

/-- The magnitude of a finite half pattern in units of `2^-24`. -/
def halfUnits (h : HalfBits) : Nat :=
  if halfExp h = 0 then halfMant h else (1024 + halfMant h) * 2 ^ (halfExp h - 1)

/-- The magnitude of a finite float pattern in units of `2^-149`. -/
def floatUnits (f : FloatBits) : Nat :=
  if floatExp f = 0 then floatMant f else (8388608 + floatMant f) * 2 ^ (floatExp f - 1)

theorem halfMagnitude_eq (h : HalfBits) : halfMagnitude h = (halfUnits h : ℚ) * (2 : ℚ) ^ (-24 : ℤ) := by
  unfold halfMagnitude halfUnits
  split_ifs with he
  · norm_num; ring
  · have hx : (halfExp h : ℤ) - 15 = ((halfExp h - 1 : ℕ) : ℤ) + (-24) + 10 := by omega
    rw [hx, zpow_add₀ (by norm_num), zpow_add₀ (by norm_num), zpow_natCast]
    push_cast; norm_num; ring

theorem floatMagnitude_eq (f : FloatBits) : floatMagnitude f = (floatUnits f : ℚ) * (2 : ℚ) ^ (-149 : ℤ) := by
  unfold floatMagnitude floatUnits
  split_ifs with he
  · norm_num; ring
  · have hx : (floatExp f : ℤ) - 127 = ((floatExp f - 1 : ℕ) : ℤ) + (-149) + 23 := by omega
    rw [hx, zpow_add₀ (by norm_num), zpow_add₀ (by norm_num), zpow_natCast]
    push_cast; norm_num; ring

end Sys2Proof.Machine
end

