-- ==== Sys2Proof/Tests/Slice0.lean ====
section
/-!
SUPPORT. Small tests, each on one step or one function; every expected value is taken from spec/95_test_vectors.md or from
the rule the comment names. Then, for each statement with hypotheses, a witness that meets them.
-/
namespace Sys2Proof.Tests

open Sys2Proof Sys2Proof.Machine

/-! ### WellFormed: one ill-formed term per constructor that has an ignored field (R47) -/

theorem test_wellformed_accepts : (Instr.decT 0 0x3C00).WellFormed ∧ (Instr.elutRd 0 0x1FF).WellFormed := by decide
theorem test_wellformed_refuses_conversions :
    ¬ (Instr.decT 0xFFFF 0x3C00).WellFormed ∧ ¬ (Instr.decA 1 0x3C00).WellFormed ∧
    ¬ (Instr.elutRd 1 0x07F).WellFormed := by decide
theorem test_wellformed_refuses_predicates :
    ¬ (Instr.isneg 1 0).WellFormed ∧ ¬ (Instr.iszero 0x1234 0).WellFormed ∧ ¬ (Instr.isfinite 1 0).WellFormed ∧
    ¬ (Instr.isnorm 1 0).WellFormed ∧ ¬ (Instr.isdenorm 1 0).WellFormed ∧ ¬ (Instr.isinf 1 0).WellFormed ∧
    ¬ (Instr.isnan 0x8000 0).WellFormed := by decide

/-! ### Decoding: words written out from R41, R43 and section 3 of 95_test_vectors.md, one per constructor -/

theorem test_decode_encT : decode 0x03F800000#36 = .ok (.encT 0x3F800000#32) := by decide
theorem test_decode_encA : decode 0x147000000#36 = .ok (.encA 0x47000000#32) := by decide
theorem test_decode_decT : decode 0x200001400#36 = .ok (.decT 0 0x1400#16) := by decide
theorem test_decode_decA : decode 0x3FFFF3C00#36 = .ok (.decA 0xFFFF#16 0x3C00#16) := by decide
theorem test_decode_elutRd : decode 0x4FFFFFE7F#36 = .ok (.elutRd 0x7FFFFF#23 0x07F#9) := by decide
theorem test_decode_isneg : decode 0x880000000#36 = .ok (.isneg 0x8000#16 0) := by decide
theorem test_decode_iszero : decode 0x912340000#36 = .ok (.iszero 0x1234#16 0) := by decide
theorem test_decode_isfinite : decode 0xA00007C00#36 = .ok (.isfinite 0 0x7C00#16) := by decide
theorem test_decode_isnorm : decode 0xB00003C00#36 = .ok (.isnorm 0 0x3C00#16) := by decide
theorem test_decode_isdenorm : decode 0xC00000001#36 = .ok (.isdenorm 0 0x0001#16) := by decide
theorem test_decode_isinf : decode 0xD00007C00#36 = .ok (.isinf 0 0x7C00#16) := by decide
theorem test_decode_isnan : decode 0xEABCD7C01#36 = .ok (.isnan 0xABCD#16 0x7C01#16) := by decide
theorem test_decode_reserved :
    decode 0x500000000#36 = .error (.reservedOp 0x5#4) ∧ decode 0x6FFFFFFFF#36 = .error (.reservedOp 0x6#4) ∧
    decode 0x7FFFFFFFF#36 = .error (.reservedOp 0x7#4) ∧ decode 0xF3F800000#36 = .error (.reservedOp 0xF#4) := by decide
theorem test_decode_wide_number : decodeNumber (2 ^ 36) = .error .notACommandWord := by decide
theorem test_table_word_shorter_than_the_word : decodeTableWord 32 0x3F800000 = some (.encT 0x3F800000#32) := by decide

/-! ### One step from reset on one command word -/

/-- The outputs of one step from reset on a command word. -/
def stepOn (w : Nat) : Option (Nat × Bool) :=
  (blockState (step (State.reset.withFetchWord 40 w))).map (fun s => (s.result.toNat, s.illegal))

-- R51, R61: a tie with odd kept bits rounds up; the fast path's carry reaches the exponent
theorem test_encT_tie_odd : stepOn 0x03F803000 = some (0x3C02, false) := by decide
theorem test_encT_fast_carry : stepOn 0x046FFF000 = some (0x7800, false) := by decide
-- R57: the largest subnormal's tie goes up to the smallest normal; R53: a payload all below bit 13
theorem test_encA_subnormal_tie : stepOn 0x1387FE000 = some (0x0400, false) := by decide
theorem test_encA_nan_low_payload : stepOn 0x1FF801FFF = some (0xFC01, false) := by decide
-- R68 through the table, R70; the ignored bits set
theorem test_decT_subnormal : stepOn 0x2FFFF0155 = some (0x37AA8000, false) := by decide
theorem test_decT_infinity : stepOn 0x20000FC00 = some (0xFF800000, false) := by decide
-- R71: no quieting; R69
theorem test_decA_nan : stepOn 0x300007C01 = some (0x7F802000, false) := by decide
theorem test_decA_normal : stepOn 0x300003555 = some (0x3EAAA000, false) := by decide
-- R25: the top of the negative band, and the sentinel just above the positive one
theorem test_elutRd_band_top : stepOn 0x40000018D = some (0xF400, false) := by decide
theorem test_elutRd_above_band : stepOn 0x40000008E = some (0, false) := by decide
-- R78 to R84, section 2.3 of 95_test_vectors.md
theorem test_isneg_nan : stepOn 0x80000FE00 = some (1, false) := by decide
theorem test_isneg_ignored_bit : stepOn 0x880000000 = some (0, false) := by decide
theorem test_iszero_negative : stepOn 0x900008000 = some (1, false) := by decide
theorem test_iszero_subnormal : stepOn 0x900000001 = some (0, false) := by decide
theorem test_isfinite_largest : stepOn 0xA0000FBFF = some (1, false) := by decide
theorem test_isfinite_nan : stepOn 0xA00007C01 = some (0, false) := by decide
theorem test_isnorm_smallest : stepOn 0xB00000400 = some (1, false) := by decide
theorem test_isnorm_infinity : stepOn 0xB0000FC00 = some (0, false) := by decide
theorem test_isdenorm_largest : stepOn 0xC000083FF = some (1, false) := by decide
theorem test_isdenorm_zero : stepOn 0xC00008000 = some (0, false) := by decide
theorem test_isinf_negative : stepOn 0xD0000FC00 = some (1, false) := by decide
theorem test_isinf_nan : stepOn 0xD00007C01 = some (0, false) := by decide
theorem test_isnan_all_ones : stepOn 0xE0000FFFF = some (1, false) := by decide
theorem test_isnan_infinity : stepOn 0xE0000FC00 = some (0, false) := by decide
-- R44, R93
theorem test_reserved_op : stepOn 0xF3F800000 = some (0, true) := by decide
theorem test_nothing_pending : step State.reset = .refused .noCommandPending := rfl

/-! ### Functions: the alternative policy and the corrected thresholds (95_test_vectors.md section 2.1) -/

theorem test_quiet_policy :
    encodeArith .quietTrunc 0x7F800001#32 = 0x7E00#16 ∧ encodeArith .quietTrunc 0x7F802000#32 = 0x7E01#16 := by decide
theorem test_threshold_below_65520 : encodeArith .truncSetLsb 0x477FEFFF#32 = 0x7BFF#16 := by decide
theorem test_threshold_65520 : encodeTable .truncSetLsb 0xC77FF000#32 = 0xFC00#16 := by decide
theorem test_flush_tie : encodeTable .truncSetLsb 0x33000000#32 = 0#16 := by decide
-- R14: 0x7BFF is 65504 and 0x0001 is 2^-24
theorem test_value_largest : halfValue 0x7BFF#16 = .finite false 65504 := by
  have he : halfExp 0x7BFF#16 = 30 := by decide
  have hm : halfMant 0x7BFF#16 = 1023 := by decide
  have hs : (halfSign 0x7BFF#16 == 1) = false := by decide
  simp only [halfValue, halfMagnitude, he, hm, hs]
  norm_num

/-! ### Assembler (R47, R48; the lines of programs P1 and P4) -/

theorem test_assemble_lines :
    assembleLines ["enc.t    0x3F800000   ; float 1.0 to half", "", "lut.rd 15360", ".word36  0x500000000  ; reserved op 0x5"]
      = .ok [0x03F800000#36, 0x200003C00#36, 0x500000000#36] := by decide
theorem test_assemble_refuses_wide : assembleLines ["elut.rd 0x200"] = .error (.operandTooWide .elutRd 0x200) := by
  decide
-- R47: each base's own digits, both cases of hexadecimal letters, and no others
theorem test_operand_digits :
    operandValue "0x9aF".toList = some 0x9AF ∧ operandValue "1098".toList = some 1098 ∧
    operandValue "12A".toList = none ∧ operandValue "0xG".toList = none ∧ operandValue "0x".toList = none := by decide
theorem test_assemble_refuses_unknown : assembleLines ["fma 1"] = .error .unknownMnemonic := by decide

/-! ### Witnesses: each statement's hypotheses are met -/

/-- A state in which one requester has one command pending. -/
def oneCommand (op : OpBits) (arg : ArgBits) : State := State.reset.present ⟨0, op, arg⟩

theorem test_witness_EncodeOfDecodeIsTheWord : decode 0x4FFFFFE7F#36 = .ok (.elutRd 0x7FFFFF#23 0x07F#9) := by decide
theorem test_witness_ReservedOps :
    (oneCommand 0xF 7).pending = [⟨0, 0xF#4, 7#32⟩] ∧ (oneCommand 0x4 7).pending = [⟨0, 0x4#4, 7#32⟩] ∧
    ¬ ((0x4#4 : OpBits) = 0x5#4 ∨ (0x4#4 : OpBits) = 0x6#4 ∨ (0x4#4 : OpBits) = 0x7#4 ∨ (0x4#4 : OpBits) = 0xF#4) := by decide
theorem test_witness_IgnoredBits_half :
    ((0x8#4 : OpBits) ≤ 0xE#4 ∧ (0xE#4 : OpBits) ≤ 0xE#4) ∧
    (0xABCD7C01#32).toNat % 2 ^ 16 = (0x00007C01#32).toNat % 2 ^ 16 := by decide
theorem test_witness_IgnoredBits_key : (0xFFFFFE7F#32).toNat % 2 ^ 9 = (0x7F#32).toNat % 2 ^ 9 := by decide
theorem test_witness_StepExecutes :
    (oneCommand 0xE 0x7C01).pending = [⟨0, 0xE#4, 0x7C01#32⟩] ∧
    decode (0xE#4 ++ 0x7C01#32) = .ok (.isnan 0 0x7C01#16) := by decide
theorem test_witness_OneCommand : State.reset.pending = [] ∧ (oneCommand 0 1).pending = [⟨0, 0#4, 1#32⟩] := by decide
theorem test_witness_IllegalOp :
    step ((oneCommand 0x0 0x3F800000).present ⟨1, 0x5#4, 9#32⟩) =
      .fault (.illegalOp ⟨0x5#4, 9#32, 0, true, [⟨0, 0#4, 0x3F800000#32⟩], [⟨1, 0, true⟩]⟩) := rfl
theorem test_witness_OutputsStay :
    State.reset.present ⟨0, 0x8#4, 0x8000#32⟩ = oneCommand 0x8 0x8000 ∧ (oneCommand 0x8 0x8000).Combinational ∧
    step (oneCommand 0x8 0x8000) = .next ⟨0x8#4, 0x8000#32, 1, false, [], [⟨0, 1, false⟩]⟩ := by
  refine ⟨rfl, ?_, rfl⟩
  unfold State.Combinational; decide
theorem test_witness_Requesters :
    ((oneCommand 0x0 5).present ⟨1, 0xF#4, 0#32⟩).pending.filter (fun r => r.requester == 0) =
      (oneCommand 0x0 5).pending.filter (fun r => r.requester == 0) := by decide
theorem test_witness_RunSucceeds : (oneCommand 0x8 0x8000).Succeeds ∧ (oneCommand 0x8 0x8000).NoReserved := by
  refine ⟨⟨_, rfl⟩, ?_⟩
  unfold State.NoReserved; decide
-- R51: the two clauses at their boundary, a tie with even and with odd kept bits
theorem test_witness_Mantissa :
    (0x1000 / 2 ^ 12 % 2 = 1 ∧ ¬ (0x1000 % 2 ^ 12 ≠ 0 ∨ 0x1000 / 2 ^ 13 % 2 = 1)) ∧
    (0x7FF000 < 2 ^ 23 ∧ 0x7FF000 / 2 ^ 12 % 2 = 1 ∧ 0x7FF000 / 2 ^ 13 % 2 = 1) := by decide
-- R53: a payload whose top ten bits are all zero, and one whose top ten bits are 1
theorem test_witness_NanNarrows :
    (floatExp 0x7F801FFF#32 = 255 ∧ floatMant 0x7F801FFF#32 / 2 ^ 13 = 0 ∧ floatMant 0x7F801FFF#32 ≠ 0) ∧
    (floatExp 0x7F802000#32 = 255 ∧ floatMant 0x7F802000#32 / 2 ^ 13 = 1) := by decide
theorem test_witness_InfinityNarrows : floatExp 0xFF800000#32 = 255 ∧ floatMant 0xFF800000#32 = 0 := by decide
theorem test_witness_LargeExponent : floatExp 0x47800000#32 = 143 ∧ floatExp 0x7F7FFFFF#32 = 254 := by decide
theorem test_witness_NormalRange : floatExp 0x38800000#32 = 113 ∧ floatExp 0x477FF000#32 = 142 := by decide
theorem test_witness_SubnormalRange : floatExp 0x33000000#32 = 102 ∧ floatExp 0x387FF000#32 = 112 := by decide
theorem test_witness_SmallExponent : floatExp 0x32FFFFFF#32 = 101 ∧ floatExp 0x80000000#32 = 0 := by decide
theorem test_witness_FastPath :
    floatExp 0x46FFF000#32 = 141 ∧ floatExp 0x47000000#32 = 142 ∧ floatExp 0x38000000#32 = 112 := by decide
theorem test_witness_Thresholds :
    floatIsNan 0x477FF000#32 = false ∧ floatIsNan 0xFF800000#32 = false ∧ floatIsNan 0x477FE000#32 = false ∧
    floatIsNan 0x477FEFFF#32 = false ∧ floatIsNan 0x33000000#32 = false ∧ floatIsNan 0x33000001#32 = false := by decide
theorem test_witness_NearestHalf :
    (0xC77FEFFF#32).toNat % 2 ^ 31 < 0x477FF000 ∧ halfIsFinite 0x7BFF#16 = true := by decide
theorem test_witness_RoundTrip : (Instr.decA 0xFFFF 0xFE00) = .decT 0xFFFF 0xFE00 ∨
    (Instr.decA 0xFFFF 0xFE00) = .decA 0xFFFF 0xFE00 := by decide
theorem test_witness_ZeroWidens : halfExp 0x8000#16 = 0 ∧ halfMant 0x8000#16 = 0 := by decide
theorem test_witness_SubnormalWidens :
    halfExp 0x03FF#16 = 0 ∧ 2 ^ 9 ≤ halfMant 0x03FF#16 ∧ halfMant 0x03FF#16 < 2 ^ 10 ∧
    2 ^ 0 ≤ halfMant 0x8001#16 ∧ halfMant 0x8001#16 < 2 ^ 1 := by decide
theorem test_witness_NormalWidens : halfExp 0x0400#16 = 1 ∧ halfExp 0xFBFF#16 = 30 := by decide
theorem test_witness_InfinityWidens : halfExp 0xFC00#16 = 31 ∧ halfMant 0xFC00#16 = 0 := by decide
theorem test_witness_NanWidens :
    halfExp 0x7C01#16 = 31 ∧ halfMant 0x7C01#16 ≠ 0 ∧ halfMant 0x7C01#16 / 2 ^ 9 = 0 := by decide
theorem test_witness_Injective : fp16Decoder 0x7C01#16 .table = fp16Decoder 0x7C01#16 .arithmetic := by decide
theorem test_witness_LutHalves : (0x7FFF : Nat) < 0x8000 := by decide
theorem test_witness_Assembler :
    assemble (.operation .elutRd 0x1FF) = .ok 0x4000001FF#36 ∧
    assemble (.operation .elutRd 0x200) = .error (.operandTooWide .elutRd 0x200) := by decide

end Sys2Proof.Tests
end

section
/-!
What ELUT holds and what ELUT.RD answers. Both statements rest on one fact: the entry of every key as a sum of fields.
-/
namespace Sys2Proof.Machine

/-- The entry of every key: the sign above the rebiased exponent inside the band, the sentinel outside (R25). -/
theorem elutRead_toNat (k : ElutKey) :
    (elutRead k).toNat =
      if 113 ≤ k.toNat % 2 ^ 8 ∧ k.toNat % 2 ^ 8 ≤ 141
      then k.toNat / 2 ^ 8 * 2 ^ 15 + (k.toNat % 2 ^ 8 - 112) * 2 ^ 10 else 0 :=
  elutEntryFor_toNat (high := 29) (by decide) k

/-- Zero extension keeps an entry's value (R42). -/
theorem packEntry_eq_ofNat (entry : ElutEntry) : packEntry entry = BitVec.ofNat 32 entry.toNat :=
  (BitVec.ofNat_toNat 32 entry).symm

/-- ELUT.RD drives its key's entry, zero-extended, and nothing else changes (R87). -/
theorem exec_elutRd (x : BitVec 23) (k : ElutKey) (s : State) :
    exec (.elutRd x k) s =
      .next { s with result := BitVec.ofNat 32 (elutRead k).toNat, illegal := false } := by
  rw [exec_eq, ← packEntry_eq_ofNat]; rfl

/-- Settles O42: ELUT.RD drives the entry of its key, and the entry is R25's sum of fields. -/
theorem elutRdReadsTheEntry : Obligations.ElutRdReadsTheEntry := by
  intro x k s
  rw [exec_elutRd, elutRead_toNat]

/-- Settles O43: a key in the band has a fragment whose exponent is its own less 112; any other has the sentinel. -/
theorem elutEntriesAreFragmentsOrTheSentinel : Obligations.ElutEntriesAreFragmentsOrTheSentinel := by
  intro k
  have hk := k.isLt
  have hentry := elutRead_toNat k
  split_ifs at hentry with hband
  · exact .inr ⟨k.toNat / 2 ^ 8, k.toNat % 2 ^ 8 - 112, by omega, by omega, by omega, hentry⟩
  · exact .inl (BitVec.eq_of_toNat_eq hentry)

end Sys2Proof.Machine
end

section
/-!
The pseudo-instructions: each assembles as the operation it expands to, and `lut.rd` names the table decoder because
DEC.T drives the LUT entry itself.
-/
namespace Sys2Proof.Machine

/-- A pseudo-instruction assembles as the operation it expands to (R48). -/
theorem assemble_pseudo (p : Pseudo) (n : Nat) :
    assemble (.pseudo p n) = assemble (.operation (expandPseudo p) n) := rfl

/-- The table path of the decoder, on `result`, is one read of LUT (R40, R74). -/
theorem resultOf_decT (x : BitVec 16) (h : HalfBits) : resultOf (.decT x h) = lutRead h := rfl

/-- DEC.T drives the LUT entry of its half, and nothing else changes (R74). -/
theorem exec_decT (x : BitVec 16) (h : HalfBits) (s : State) :
    exec (.decT x h) s = .next { s with result := lutRead h, illegal := false } := by
  rw [exec_eq, resultOf_decT, State.drive]

/-- Settles O47: the three expansions of R48, and the LUT read that `lut.rd` stands for is what DEC.T drives. -/
theorem pseudoInstructionsExpand : Obligations.PseudoInstructionsExpand := by
  intro n
  exact ⟨assemble_pseudo .enc n, assemble_pseudo .dec n, assemble_pseudo .lutRd n, exec_decT⟩

end Sys2Proof.Machine
end

section
/-!
The rounding of the encoder by one adder (R51): half a unit less one, plus the lowest kept bit, carries out of the
dropped bits exactly when round-to-nearest-even rounds up.
-/
namespace Sys2Proof.Machine

/-- The one-adder rounding adds 1 to the kept bits exactly when the round bit is 1 and a sticky bit or the lowest kept
bit is 1 (R51). -/
theorem roundMant_eq_kept_add (m : Nat) :
    roundMant m = m / 2 ^ 13 + if m / 2 ^ 12 % 2 = 1 ∧ (m % 2 ^ 12 ≠ 0 ∨ m / 2 ^ 13 % 2 = 1) then 1 else 0 := by
  rw [roundMant_eq]
  split_ifs with hup <;> omega

/-- Settles O16: the kept bits are at most 0x3FF, so the rounded mantissa is 0x400 only by rounding up from there. -/
theorem mantissaRoundsToNearestEven : Obligations.MantissaRoundsToNearestEven := by
  intro m hm kept roundUp
  have hkept : kept ≤ 0x3FF := by omega
  have hround : roundMant m = kept + if roundUp then 1 else 0 := roundMant_eq_kept_add m
  by_cases hup : roundUp
  · rw [if_pos hup] at hround
    exact ⟨fun _ => hround, fun hdown => absurd hup hdown, by omega, fun _ => ⟨by omega, hup⟩, fun _ => by omega⟩
  · rw [if_neg hup, Nat.add_zero] at hround
    exact ⟨fun hup' => absurd hup' hup, fun _ => hround, by omega, fun _ => by omega, fun h => absurd h.2 hup⟩

end Sys2Proof.Machine
end

section
/-!
Which path the table encoder takes (R62): the ELUT entry of a float's key is a fragment exactly for the exponent fields
of the band, and outside the band the table encoder is the reference encoder.
-/
namespace Sys2Proof.Machine

/-- The encoder's key is `f >> 23`: nothing stands above the sign bit (R26). -/
theorem elutKeyOf_eq (f : FloatBits) : elutKeyOf f = BitVec.ofNat 9 (f.toNat / 2 ^ 23) := by
  apply BitVec.eq_of_toNat_eq
  simp only [elutKeyOf, bitField_eq, BitVec.toNat_ofNat]
  omega

/-- The ELUT entry of a float's key: its sign above its rebiased exponent inside the band, the sentinel outside (R25,
R26). -/
theorem elutRead_elutKeyOf_toNat (f : FloatBits) :
    (elutRead (elutKeyOf f)).toNat =
      if 113 ≤ floatExp f ∧ floatExp f ≤ 141
      then floatSign f * 2 ^ 15 + (floatExp f - 112) * 2 ^ 10 else 0 := by
  have he := floatExp_lt f
  have hexp : (elutKeyOf f).toNat % 2 ^ 8 = floatExp f := by rw [elutKeyOf_toNat]; omega
  have hsign : (elutKeyOf f).toNat / 2 ^ 8 = floatSign f := by rw [elutKeyOf_toNat]; omega
  rw [elutRead_toNat, hexp, hsign]

/-- A float's key has a fragment exactly when its exponent is in the band: a fragment's own exponent is at least 1, so
it is never the sentinel (R25). -/
theorem elutRead_elutKeyOf_ne_zero_iff (f : FloatBits) :
    elutRead (elutKeyOf f) ≠ 0 ↔ 113 ≤ floatExp f ∧ floatExp f ≤ 141 := by
  have hzero : elutRead (elutKeyOf f) = 0 ↔ (elutRead (elutKeyOf f)).toNat = 0 := BitVec.toNat_inj.symm
  rw [ne_eq, hzero, elutRead_elutKeyOf_toNat]
  split_ifs with hband <;> omega

/-- Inside the band the table encoder is the fast path on the key's entry (R62). -/
theorem encodeTable_of_band (policy : NanNarrowPolicy) {f : FloatBits} (hband : 113 ≤ floatExp f ∧ floatExp f ≤ 141) :
    encodeTable policy f = fastEnc (elutRead (elutKeyOf f)) (floatMant f) :=
  if_pos ((elutRead_elutKeyOf_ne_zero_iff f).2 hband)

/-- Outside the band the table encoder is the reference encoder (R62). -/
theorem encodeTable_of_not_band (policy : NanNarrowPolicy) {f : FloatBits}
    (hout : floatExp f ≤ 112 ∨ 142 ≤ floatExp f) : encodeTable policy f = encodeArith policy f :=
  if_neg (mt (elutRead_elutKeyOf_ne_zero_iff f).1 (by omega))

/-- Settles O23: the key `f >> 23` is the encoder's own, and its entry decides the path. -/
theorem fastPathIsTakenExactlyInTheBand : Obligations.FastPathIsTakenExactlyInTheBand := by
  intro policy f
  rw [← elutKeyOf_eq]
  exact ⟨elutRead_elutKeyOf_ne_zero_iff f, encodeTable_of_band policy, encodeTable_of_not_band policy⟩

end Sys2Proof.Machine
end

section
/-!
The encoder's cases outside the normalized and the subnormal half range: NaN, infinity, and the flush to zero (R52 to
R54, R58). Each is one equation for the magnitude below the sign bit; as these exponents are outside the ELUT band, one
lemma carries that magnitude to both encode operations.
-/
namespace Sys2Proof.Machine

/-- Both encode operations complete with the half that both paths give (R60, R63). -/
theorem encodesTo_of_paths {f : FloatBits} {h : HalfBits} (htable : encodeTable Config.nanNarrowPolicy f = h)
    (harith : encodeArith Config.nanNarrowPolicy f = h) : EncodesTo f h := by
  rintro s i (rfl | rfl)
  · rw [exec_eq, resultOf, fp16Encoder, htable, packHalf, State.drive]
  · rw [exec_eq, resultOf, fp16Encoder, harith, packHalf, State.drive]

/-- `EncodeArith(f)` as the pattern of its sign and magnitude (R59). -/
theorem encodeArith_eq (policy : NanNarrowPolicy) (f : FloatBits) :
    encodeArith policy f =
      BitVec.ofNat 16 (floatSign f * 2 ^ 15 + encodeMagnitude policy (floatExp f) (floatMant f)) := by
  rw [← encodeArith_toNat, BitVec.ofNat_toNat, BitVec.setWidth_eq]

/-- Outside the ELUT band both encode operations complete with the sign above the reference encoder's magnitude (R59,
R62). -/
theorem encodesTo_of_not_band {f : FloatBits} {x : Nat} (hout : floatExp f ≤ 112 ∨ 142 ≤ floatExp f)
    (hx : encodeMagnitude Config.nanNarrowPolicy (floatExp f) (floatMant f) = x) :
    EncodesTo f (BitVec.ofNat 16 (floatSign f * 2 ^ 15 + x)) := by
  have harith := encodeArith_eq Config.nanNarrowPolicy f
  rw [hx] at harith
  exact encodesTo_of_paths ((encodeTable_of_not_band _ hout).trans harith) harith

/-- Case float NaN (R52). -/
theorem encodeMagnitude_nan (policy : NanNarrowPolicy) {e m : Nat} (he : e = 255) (hm : m ≠ 0) :
    encodeMagnitude policy e m = 0x7C00 + nanPayload policy m :=
  if_pos ⟨he, hm⟩

/-- Case float infinity (R54). -/
theorem encodeMagnitude_infinity (policy : NanNarrowPolicy) {e m : Nat} (he : e = 255) (hm : m = 0) :
    encodeMagnitude policy e m = 0x7C00 := by
  rw [encodeMagnitude, if_neg (fun hnan => hnan.2 hm), if_pos he]

/-- Case flush to zero: an exponent of at most 101 is below every other case (R58). -/
theorem encodeMagnitude_flush (policy : NanNarrowPolicy) {e m : Nat} (he : e ≤ 101) :
    encodeMagnitude policy e m = 0 := by
  unfold encodeMagnitude
  split_ifs <;> omega

/-- The payload under this hardware's policy: the top ten bits, or 1 for none (R53). -/
theorem nanPayload_truncSetLsb (m : Nat) :
    nanPayload .truncSetLsb m = if m / 2 ^ 13 = 0 then 1 else m / 2 ^ 13 := by
  rw [nanPayload, Nat.shiftRight_eq_div_pow]

/-- The payload under the alternative policy: the top ten bits with bit 9 forced (R53). -/
theorem nanPayload_quietTrunc (m : Nat) : nanPayload .quietTrunc m = m / 2 ^ 13 ||| 0x200 := by
  rw [nanPayload, Nat.shiftRight_eq_div_pow]

/-- No policy gives a zero payload, which would make the NaN an infinity (R53). -/
theorem nanPayload_pos (policy : NanNarrowPolicy) (m : Nat) : 0 < nanPayload policy m := by
  cases policy with
  | truncSetLsb => rw [nanPayload_truncSetLsb]; split_ifs <;> omega
  | quietTrunc =>
    rw [nanPayload_quietTrunc]
    exact lt_of_lt_of_le (by decide) Nat.right_le_or

/-- Settles O17: the NaN case puts the policy's payload below exponent 31, and the payload is never zero. -/
theorem nanNarrowsToNanOfTheSameSign : Obligations.NanNarrowsToNanOfTheSameSign := by
  intro f he hm top payload
  refine ⟨?_, ?_, fun policy => ⟨nanPayload_pos policy _, nanPayload_lt policy (floatMant_lt f)⟩⟩
  · have hmag : encodeMagnitude .truncSetLsb (floatExp f) (floatMant f) = 0x7C00 + payload := by
      rw [encodeMagnitude_nan _ he hm, nanPayload_truncSetLsb]
    rw [Nat.add_assoc]
    exact encodesTo_of_not_band (by omega) hmag
  · rw [encodeArith_eq, encodeMagnitude_nan _ he hm, nanPayload_quietTrunc, Nat.add_assoc]

/-- Settles O18: an infinity's exponent is outside the band, and its magnitude is 0x7C00. -/
theorem infinityNarrowsToInfinity : Obligations.InfinityNarrowsToInfinity := by
  intro f he hm
  exact encodesTo_of_not_band (by omega) (encodeMagnitude_infinity _ he hm)

/-- Settles O22: exponents up to 101 are outside the band, and their magnitude is 0. -/
theorem smallExponentFlushesToSignedZero : Obligations.SmallExponentFlushesToSignedZero := by
  intro f he
  have hflush := encodesTo_of_not_band (by omega) (encodeMagnitude_flush Config.nanNarrowPolicy he)
  rwa [Nat.add_zero] at hflush

end Sys2Proof.Machine
end

section
/-!
The decoder's classes of exponent 0 and 31: zero, infinity and NaN (R67, R70, R71), and the sign of every class. Both
decode operations answer `DecodeArith(h)`, so each statement is about its sign, exponent and mantissa fields.
-/
namespace Sys2Proof.Machine

/-- LUT holds the arithmetic decoder (R30). -/
theorem lutRead_eq_decodeArith (h : HalfBits) : lutRead h = decodeArith h := rfl

/-- DEC.A drives `DecodeArith` of its half, and nothing else changes (R73). -/
theorem exec_decA (x : BitVec 16) (h : HalfBits) (s : State) :
    exec (.decA x h) s = .next { s with result := decodeArith h, illegal := false } := by
  rw [exec_eq, resultOf, fp16Decoder, packFloat, State.drive]

/-- Both decode operations complete with `DecodeArith(h)` (R73, R74). -/
theorem decodesTo_decodeArith (h : HalfBits) : DecodesTo h (decodeArith h) := by
  rintro s x i (rfl | rfl)
  · rw [exec_decT, lutRead_eq_decodeArith]
  · exact exec_decA x h s

/-- Both decode operations complete with the half's sign above the exponent and mantissa its case gives (R72). -/
theorem decodesTo_of_magnitude {h : HalfBits} {x : Nat}
    (hx : decodeExp (halfExp h) (halfMant h) * 2 ^ 23 + decodeMant (halfExp h) (halfMant h) = x) :
    DecodesTo h (BitVec.ofNat 32 (halfSign h * 2 ^ 31 + x)) := by
  rw [← hx, ← Nat.add_assoc, ← decodeArith_eq]
  exact decodesTo_decodeArith h

/-- Case half zero: both fields are 0 (R67). -/
theorem decodeFields_zero : decodeExp 0 0 = 0 ∧ decodeMant 0 0 = 0 := by decide

/-- Cases half infinity and half NaN: exponent 255 (R70, R71). -/
theorem decodeExp_allOnes (m : Nat) : decodeExp 31 m = 255 := by simp [decodeExp]

/-- Cases half infinity and half NaN: the mantissa moves up 13 bits, and no bit is forced (R70, R71). -/
theorem decodeMant_allOnes (m : Nat) : decodeMant 31 m = m * 2 ^ 13 := by simp [decodeMant]

/-- Bit 31 of `DecodeArith(h)` is the sign of the half, whatever its class (R67). -/
theorem decodeArith_toNat_div (h : HalfBits) : (decodeArith h).toNat / 2 ^ 31 = halfSign h := by
  obtain ⟨hsign, -, -⟩ := decodeArith_fields h
  have hlt := (decodeArith h).isLt
  rw [← hsign, floatSign_eq]
  omega

/-- The fields of a widened half infinity or NaN: exponent 255, and the payload at bits 22..13 (R70, R71). -/
theorem decodeArith_fields_allOnes {h : HalfBits} (he : halfExp h = 31) :
    floatExp (decodeArith h) = 255 ∧ floatMant (decodeArith h) = halfMant h * 2 ^ 13 := by
  obtain ⟨-, hexp, hmant⟩ := decodeArith_fields h
  rw [hexp, hmant, he]
  exact ⟨decodeExp_allOnes _, decodeMant_allOnes _⟩

/-- Settles O30: a half zero gives the fields 0 below its sign, and bit 31 is the half's sign for every class. -/
theorem zeroWidensToZeroAndSignsAreKept : Obligations.ZeroWidensToZeroAndSignsAreKept := by
  refine ⟨fun h he hm => ?_, fun h => ⟨decodeArith h, decodesTo_decodeArith h, decodeArith_toNat_div h⟩⟩
  obtain ⟨hexp, hmant⟩ := decodeFields_zero
  have hzero := decodesTo_of_magnitude (h := h) (x := 0) (by rw [he, hm, hexp, hmant, Nat.zero_mul])
  rwa [Nat.add_zero] at hzero

/-- Settles O33: the fields of a half infinity are 255 and 0, which is `0x7F800000` below the sign. -/
theorem infinityWidensToInfinity : Obligations.InfinityWidensToInfinity := by
  intro h he hm
  exact decodesTo_of_magnitude (by simp [he, hm, decodeExp_allOnes, decodeMant_allOnes])

/-- Settles O34: the payload of a half NaN, moved up 13 bits, stays nonzero, and its top bit is the half's bit 9. -/
theorem nanWidensWithItsPayload : Obligations.NanWidensWithItsPayload := by
  intro h he hm
  obtain ⟨hsign, -, -⟩ := decodeArith_fields h
  obtain ⟨hexp, hmant⟩ := decodeArith_fields_allOnes he
  have hval : (decodeArith h).toNat = halfSign h * 2 ^ 31 + 0x7F800000 + halfMant h * 2 ^ 13 := by
    rw [float_toNat, hsign, hexp, hmant, show (255 * 2 ^ 23 : Nat) = 0x7F800000 from rfl]
  have hnan : floatIsNan (decodeArith h) = true := by simp [floatIsNan, hexp, hmant, hm]
  exact ⟨decodeArith h, decodesTo_decodeArith h, hval, hnan, fun hquiet => by omega⟩

end Sys2Proof.Machine
end

section
/-!
The classifier operations (R77 to R84). Each predicate of the sub-block is a condition on the fields of its half; below
the sign bit a half is exponent above mantissa, which is what the mask forms compare; and one lemma carries any such
condition to the operation's answer.
-/
namespace Sys2Proof.Machine

/-- `isNegative` is bit 15 (R78). -/
theorem halfIsNegative_eq (h : HalfBits) : halfIsNegative h = h.getLsbD 15 := by
  rw [halfIsNegative, halfSign_eq, BitVec.getLsbD, Nat.testBit_eq_decide_div_mod_eq]
  rfl

theorem halfIsZero_iff (h : HalfBits) : halfIsZero h = true ↔ halfExp h = 0 ∧ halfMant h = 0 := by
  simp [halfIsZero]

theorem halfIsFinite_iff (h : HalfBits) : halfIsFinite h = true ↔ halfExp h ≠ 31 := by
  simp [halfIsFinite]

theorem halfIsNormalized_iff (h : HalfBits) : halfIsNormalized h = true ↔ halfExp h ≠ 0 ∧ halfExp h ≠ 31 := by
  simp [halfIsNormalized]

theorem halfIsDenormalized_iff (h : HalfBits) : halfIsDenormalized h = true ↔ halfExp h = 0 ∧ halfMant h ≠ 0 := by
  simp [halfIsDenormalized]

theorem halfIsInfinity_iff (h : HalfBits) : halfIsInfinity h = true ↔ halfExp h = 31 ∧ halfMant h = 0 := by
  simp [halfIsInfinity]

theorem halfIsNan_iff (h : HalfBits) : halfIsNan h = true ↔ halfExp h = 31 ∧ halfMant h ≠ 0 := by
  simp [halfIsNan]

/-- The mask `0x7FFF` clears the sign and leaves exponent above mantissa (R79). -/
theorem toNat_and_magnitudeMask (h : HalfBits) : (h &&& 0x7FFF#16).toNat = halfExp h * 2 ^ 10 + halfMant h := by
  have hmask : (0x7FFF#16).toNat = 2 ^ 15 - 1 := rfl
  rw [BitVec.toNat_and, hmask, Nat.and_two_pow_sub_one_eq_mod, halfExp_eq, halfMant_eq]
  omega

/-- The mask form of `isZero` (R79). -/
theorem halfIsZero_iff_mask (h : HalfBits) : halfIsZero h = true ↔ h &&& 0x7FFF#16 = 0 := by
  have hzero : (0 : HalfBits).toNat = 0 := rfl
  rw [halfIsZero_iff, ← BitVec.toNat_inj, toNat_and_magnitudeMask, hzero]
  omega

/-- The mask form of `isInfinity`: `0x7C00` is exponent 31 above mantissa 0 (R83). -/
theorem halfIsInfinity_iff_mask (h : HalfBits) : halfIsInfinity h = true ↔ h &&& 0x7FFF#16 = 0x7C00#16 := by
  have hm := halfMant_lt h
  have hinf : (0x7C00#16).toNat = 31 * 2 ^ 10 := rfl
  rw [halfIsInfinity_iff, ← BitVec.toNat_inj, toNat_and_magnitudeMask, hinf]
  omega

/-- The mask form of `isNan`: no exponent is above 31, so what exceeds `0x7C00` does so by its mantissa (R84). -/
theorem halfIsNan_iff_mask (h : HalfBits) : halfIsNan h = true ↔ h &&& 0x7FFF#16 > 0x7C00#16 := by
  have he := halfExp_lt h
  have hm := halfMant_lt h
  have hinf : (0x7C00#16).toNat = 31 * 2 ^ 10 := rfl
  rw [halfIsNan_iff, gt_iff_lt, BitVec.lt_def, toNat_and_magnitudeMask, hinf]
  omega

/-- An instruction whose result is a predicate's bit answers that bit, and nothing else changes (R77). -/
theorem answersBit_of_resultOf {i : Instr} {b : Bool} (hresult : resultOf i = packPredicate b) : AnswersBit i b := by
  intro s
  rw [exec_eq, hresult, packPredicate_eq, State.drive]

/-- An instruction whose result is a predicate's bit answers any condition equivalent to the predicate (R77). -/
theorem answersBit_decide {i : Instr} {b : Bool} {p : Prop} [Decidable p] (hresult : resultOf i = packPredicate b)
    (hp : b = true ↔ p) : AnswersBit i (decide p) := by
  have hb : b = decide p := Bool.eq_iff_iff.2 (hp.trans decide_eq_true_iff.symm)
  rw [← hb]
  exact answersBit_of_resultOf hresult

/-- Settles O38: ISNEG answers bit 15, the others their condition on the fields, and ISZERO its mask form too. -/
theorem signZeroFiniteNormPredicates : Obligations.SignZeroFiniteNormPredicates := by
  intro x h
  refine ⟨?isneg, ?iszero, ?iszeroMask, ?isfinite, ?isnorm⟩
  case isneg => rw [← halfIsNegative_eq]; exact answersBit_of_resultOf rfl
  case iszero => exact answersBit_decide rfl (halfIsZero_iff h)
  case iszeroMask => exact answersBit_decide rfl (halfIsZero_iff_mask h)
  case isfinite => exact answersBit_decide rfl (halfIsFinite_iff h)
  case isnorm => exact answersBit_decide rfl (halfIsNormalized_iff h)

/-- Settles O39: each operation answers its condition on the fields, ISINF and ISNAN their mask forms too. -/
theorem denormInfNanPredicates : Obligations.DenormInfNanPredicates := by
  intro x h
  refine ⟨?isdenorm, ?isinf, ?isinfMask, ?isnan, ?isnanMask⟩
  case isdenorm => exact answersBit_decide rfl (halfIsDenormalized_iff h)
  case isinf => exact answersBit_decide rfl (halfIsInfinity_iff h)
  case isinfMask => exact answersBit_decide rfl (halfIsInfinity_iff_mask h)
  case isnan => exact answersBit_decide rfl (halfIsNan_iff h)
  case isnanMask => exact answersBit_decide rfl (halfIsNan_iff_mask h)

end Sys2Proof.Machine
end

section
/-!
Exceptions (R91). Only a reserved `op` has an exception, and no instruction has one of those: an instruction ends by
driving its result.
-/
namespace Sys2Proof.Machine

/-- Settles O9: the value is the instruction's own result, and driving it with `illegal = 0` is all `exec` does. -/
theorem everyOperationIsTotal : Obligations.EveryOperationIsTotal := by
  intro i s
  exact ⟨resultOf i, exec_eq i s⟩

end Sys2Proof.Machine
end

section
/-!
The command word and its instruction (R41 to R43): splitting an argument into operand and ignored field and joining them
again are inverse, and so are decoding and encoding, in both directions.
-/
namespace Sys2Proof

/-- The instruction an operation and an argument make is one of that operation (R43). -/
theorem mnemonic_instrOf (m : Mnemonic) (arg : ArgBits) : (instrOf m arg).mnemonic = m := by
  cases m <;> rfl

/-- An instruction is its operation with its argument split again (R42). -/
theorem instrOf_argumentOf (i : Instr) : instrOf i.mnemonic (argumentOf i) = i := by
  cases i <;> simp [instrOf, argumentOf, Instr.mnemonic, operandF]

/-- No bit of an argument is lost in the instruction it makes (R42). -/
theorem argumentOf_instrOf (m : Mnemonic) (arg : ArgBits) : argumentOf (instrOf m arg) = arg := by
  cases m <;> simp [instrOf, argumentOf, operandF]

/-- An operation's opcode above any argument decodes to that operation on that argument (R43). -/
theorem decode_commandWord_opcodeOf (m : Mnemonic) (arg : ArgBits) :
    decode (commandWord (opcodeOf m) arg) = .ok (instrOf m arg) := by
  simp [decode]

theorem decode_encode (i : Instr) : decode (encode i) = .ok i := by
  rw [encode, decode_commandWord_opcodeOf, instrOf_argumentOf]

/-- An accepted word's instruction is its operation on its argument (R43). -/
theorem decode_eq_ok {w : CommandWord} {i : Instr} (h : decode w = .ok i) :
    ∃ m, operationOf (commandOp w) = some m ∧ instrOf m (commandArg w) = i := by
  rw [decode] at h
  split at h
  · next m hm => exact ⟨m, hm, Except.ok.inj h⟩
  · cases h

theorem encode_of_decode {w : CommandWord} {i : Instr} (h : decode w = .ok i) : encode i = w := by
  obtain ⟨m, hm, rfl⟩ := decode_eq_ok h
  rw [encode, mnemonic_instrOf, argumentOf_instrOf, opcodeOf_of_operationOf hm, commandWord_fields]

/-- A 36-bit command word, read as a number, is the word of a table row unchanged (log entry 12). -/
theorem decodeTableWord_of_decode {w : CommandWord} {i : Instr} (h : decode w = .ok i) {nbits : Nat}
    (hbits : 36 ≤ nbits) : decodeTableWord nbits w.toNat = some i := by
  have hfits : w.toNat < 2 ^ nbits := lt_of_lt_of_le w.isLt (Nat.pow_le_pow_right (by decide) hbits)
  rw [decodeTableWord, Nat.mod_eq_of_lt hfits, decodeNumber, if_pos w.isLt, BitVec.ofNat_toNat, BitVec.setWidth_eq, h]

/-- Settles O1: the opcode selects the instruction's operation again and the argument splits as it was joined; in 40
bits the word is the same number. -/
theorem decodeOfEncodeIsTheInstruction : Obligations.DecodeOfEncodeIsTheInstruction := fun i =>
  ⟨decode_encode i, decodeTableWord_of_decode (decode_encode i) (by decide)⟩

/-- Settles O2: the instruction of an accepted word holds the word's argument whole, and its opcode is the word's. -/
theorem encodeOfDecodeIsTheWord : Obligations.EncodeOfDecodeIsTheWord := fun _ _ => encode_of_decode

/-- Settles O4: each word is evaluated. -/
theorem writtenOutWordsDecode : Obligations.WrittenOutWordsDecode := by
  unfold Obligations.WrittenOutWordsDecode
  decide

end Sys2Proof
end

section
/-!
The block's response to a command (R42 to R45): an operation answers its result from any state, a reserved `op` raises
IllegalOp, and neither reads an ignored bit.
-/
namespace Sys2Proof.Machine

/-- The block answers an operation's command with that operation's result, and nothing else changes (R43). -/
theorem respond_opcodeOf (m : Mnemonic) (arg : ArgBits) (s : State) :
    respond (opcodeOf m ++ arg) s = .next { s with result := resultOf (instrOf m arg), illegal := false } := by
  rw [← commandWord, respond_of_decode (decode_commandWord_opcodeOf m arg), exec_eq, State.drive]

/-- A predicate's command is answered with its bit (R77). -/
theorem respond_predicate {m : Mnemonic} {arg : ArgBits} {b : Bool} (s : State)
    (hresult : resultOf (instrOf m arg) = packPredicate b) :
    respond (opcodeOf m ++ arg) s = .next { s with result := if b then 1 else 0, illegal := false } := by
  rw [respond_opcodeOf, hresult, packPredicate_eq]

/-- The block raises IllegalOp on a reserved `op`, whatever the argument (R44). -/
theorem respond_reserved {op : OpBits} (hop : isReservedOp op = true) (arg : ArgBits) (s : State) :
    respond (op ++ arg) s = .fault (.illegalOp { s with result := 0, illegal := true }) := by
  rcases decode_commandWord op arg with ⟨-, hd⟩ | ⟨hdefined, -⟩
  · rw [← commandWord, respond_of_reject hd, State.drive]
  · simp [hop] at hdefined

/-- Settles O3: twelve opcodes answer the result of their operation, the predicates as one bit; four are reserved. -/
theorem opFieldSelectsTheOperation : Obligations.OpFieldSelectsTheOperation := by
  intro arg s h k answer bit reserved
  exact ⟨respond_opcodeOf .encT arg s, respond_opcodeOf .encA arg s, respond_opcodeOf .decT arg s,
    respond_opcodeOf .decA arg s, respond_opcodeOf .elutRd arg s,
    respond_reserved rfl arg s, respond_reserved rfl arg s, respond_reserved rfl arg s,
    respond_predicate (m := .isneg) s rfl, respond_predicate (m := .iszero) s rfl,
    respond_predicate (m := .isfinite) s rfl, respond_predicate (m := .isnorm) s rfl,
    respond_predicate (m := .isdenorm) s rfl, respond_predicate (m := .isinf) s rfl,
    respond_predicate (m := .isnan) s rfl, respond_reserved rfl arg s⟩

/-- An operation on a half reads the half alone (R42). -/
theorem resultOf_instrOf_congr_formH {m : Mnemonic} (hform : operandFormOf m = .H) {a b : ArgBits}
    (hoperand : operandH a = operandH b) : resultOf (instrOf m a) = resultOf (instrOf m b) := by
  cases m <;> simp [operandFormOf, instrOf, resultOf, hoperand] at hform ⊢

/-- The low 16 bits of an argument are its half operand (R42). -/
theorem operandH_congr {a b : ArgBits} (hlow : a.toNat % 2 ^ 16 = b.toNat % 2 ^ 16) : operandH a = operandH b := by
  apply BitVec.eq_of_toNat_eq
  simpa [operandH] using hlow

/-- The low 9 bits of an argument are its key operand (R42). -/
theorem operandK_congr {a b : ArgBits} (hlow : a.toNat % 2 ^ 9 = b.toNat % 2 ^ 9) : operandK a = operandK b := by
  apply BitVec.eq_of_toNat_eq
  simpa [operandK] using hlow

/-- The `op` values of operand form H in the opcode map (R43). -/
theorem operationOf_formH {op : OpBits} (hop : op = 0x2#4 ∨ op = 0x3#4 ∨ (0x8#4 ≤ op ∧ op ≤ 0xE#4)) :
    ∃ m, operationOf op = some m ∧ operandFormOf m = .H := by
  have hmap : ∀ op : OpBits, (op = 0x2#4 ∨ op = 0x3#4 ∨ (0x8#4 ≤ op ∧ op ≤ 0xE#4)) →
      (operationOf op).map operandFormOf = some .H := by decide
  simpa using hmap op hop

/-- Settles O6: an operation's outputs depend on its operand alone, the half for form H and the key for ELUT.RD. -/
theorem ignoredBitsHaveNoEffect : Obligations.IgnoredBitsHaveNoEffect := by
  refine fun op a b => ⟨fun hop hlow => ?_, fun hop hlow => ?_⟩
  · obtain ⟨m, hm, hform⟩ := operationOf_formH hop
    rw [outputs_of_operation hm, outputs_of_operation hm,
      resultOf_instrOf_congr_formH hform (operandH_congr hlow)]
  · have hm : operationOf op = some .elutRd := by rw [hop]; rfl
    simp only [outputs_of_operation hm, instrOf, resultOf, operandK_congr hlow]

end Sys2Proof.Machine
end

section
/-!
One step (R108). A step with a command pending presents it, lets the block respond and hands the outputs to the
requester; whether it faults or not, the state after is `stateAfter`. Only a reserved `op` faults (R93), and the
outputs are always those of the input ports (R39).
-/
namespace Sys2Proof.Machine

/-- The four reserved values (R44). -/
theorem isReservedOp_iff (op : OpBits) :
    isReservedOp op = true ↔ (op = 0x5#4 ∨ op = 0x6#4 ∨ op = 0x7#4 ∨ op = 0xF#4) := by
  simp [isReservedOp, or_assoc]

/-- The state a command with a reserved `op` leaves (R44, R93). -/
theorem stateAfter_reserved (s : State) {r : Request} (rest : List Request) (hr : isReservedOp r.op = true) :
    stateAfter s r rest =
      { cmdOp := r.op, cmdArg := r.arg, result := 0, illegal := true, pending := rest,
        answers := s.answers ++ [⟨r.requester, 0, true⟩] } := by
  rw [stateAfter, outputs_of_reserved hr]; rfl

theorem step_reserved {s : State} {r : Request} {rest : List Request} (hpending : s.pending = r :: rest)
    (hr : isReservedOp r.op = true) : step s = .fault (.illegalOp (stateAfter s r rest)) := by
  rcases step_cases hpending with ⟨hdefined, -, -⟩ | ⟨-, -, hstep⟩
  · simp [hr] at hdefined
  · exact hstep

theorem step_defined {s : State} {r : Request} {rest : List Request} (hpending : s.pending = r :: rest)
    (hr : isReservedOp r.op = false) :
    step s = .next (stateAfter s r rest) ∧ (stateAfter s r rest).illegal = false := by
  rcases step_cases hpending with ⟨-, hillegal, hstep⟩ | ⟨hreserved, -, -⟩
  · exact ⟨hstep, hillegal⟩
  · simp [hr] at hreserved

/-- Settles O7: with the command's word decoded, the block's response is the instruction's. -/
theorem stepExecutesTheDecodedCommand : Obligations.StepExecutesTheDecodedCommand := by
  intro s r rest i hpending hdecode
  rw [step_cons hpending, commandWord, respond_of_decode hdecode, State.accept]

/-- Settles O8: the state after a step is `stateAfter`, which holds the command, its outputs and its answer. -/
theorem oneCommandIsOneAtomicStep : Obligations.OneCommandIsOneAtomicStep := fun s =>
  ⟨step_nil, fun r rest hpending =>
    ⟨stateAfter s r rest, blockState_step hpending, rfl, rfl, rfl, rfl, rfl, rfl⟩⟩

/-- Settles O5: a reserved `op` faults with its `stateAfter`, any other steps with `illegal` 0. -/
theorem reservedOpsAreIllegalForEveryArgument : Obligations.ReservedOpsAreIllegalForEveryArgument := by
  intro s r rest hpending
  rw [← isReservedOp_iff, Bool.not_eq_true]
  exact ⟨fun hr => by rw [step_reserved hpending hr, stateAfter_reserved s rest hr],
    fun hr => ⟨_, step_defined hpending hr⟩⟩

/-- A step faults only on a pending command with a reserved `op` (R93). -/
theorem step_eq_fault {s : State} {φ : Fault} (h : step s = .fault φ) :
    ∃ r rest, s.pending = r :: rest ∧ isReservedOp r.op = true ∧ φ = .illegalOp (stateAfter s r rest) := by
  cases hpending : s.pending with
  | nil => rw [step_nil hpending] at h; cases h
  | cons r rest =>
    rcases step_cases hpending with ⟨-, -, hstep⟩ | ⟨hr, -, hstep⟩
    · rw [hstep] at h; cases h
    · rw [hstep] at h; cases h
      exact ⟨r, rest, rfl, hr, rfl⟩

theorem run_succ_of_next {s t : State} (h : step s = .next t) (k : Nat) : core.run (k + 1) s = core.run k t := by
  have hstep : core.step s = _ := h
  simp only [Host.Core.run, hstep]

theorem run_succ_of_fault {s : State} {φ : Fault} (h : step s = .fault φ) (k : Nat) :
    core.run (k + 1) s = .fault φ := by
  have hstep : core.step s = _ := h
  simp only [Host.Core.run, hstep]

/-- "the faulted run is not a successful run" (R93). -/
theorem not_succeeds_of_fault {s : State} {φ : Fault} (h : step s = .fault φ) : ¬ s.Succeeds := by
  obtain ⟨r, rest, hpending, -, -⟩ := step_eq_fault h
  rintro ⟨t, ht⟩
  rw [hpending, List.length_cons, run_succ_of_fault h] at ht
  cases ht

/-- Settles O10: only a reserved `op` faults; from the state it leaves, a defined `op` is answered as from any state. -/
theorem illegalOpIsTheOnlyCondition : Obligations.IllegalOpIsTheOnlyCondition := by
  intro s φ h
  obtain ⟨r, rest, hpending, hr, hφ⟩ := step_eq_fault h
  refine ⟨r, rest, _, hpending, (isReservedOp_iff _).1 hr, hφ, stateAfter_reserved s rest hr, ?_,
    not_succeeds_of_fault h⟩
  intro r' rest' hrest hr'
  rw [← isReservedOp_iff, Bool.not_eq_true] at hr'
  obtain ⟨hstep, hillegal⟩ := step_defined (s := stateAfter s r rest) hrest hr'
  exact ⟨_, hstep, hillegal, rfl⟩

/-- Settles O11: the reset ports are 0, and for zeros, ENC.T of +0.0, the block drives result 0 and illegal 0. -/
theorem resetOutputsMatchInputs : Obligations.ResetOutputsMatchInputs := ⟨rfl, rfl, rfl⟩

/-- The state after a command drives the outputs of the command on its input ports (R39). -/
theorem stateAfter_combinational (s : State) (r : Request) (rest : List Request) :
    (stateAfter s r rest).Combinational := rfl

/-- Settles O12: a step has a command pending, and the state it leaves is that command's `stateAfter`. -/
theorem outputsStayAFunctionOfTheInputs : Obligations.OutputsStayAFunctionOfTheInputs := by
  intro s t _ hstep
  have hblock : blockState (step s) = some t := by rcases hstep with h | h <;> simp [h, blockState]
  cases hpending : s.pending with
  | nil => simp [step_nil hpending, blockState] at hblock
  | cons r rest =>
    rw [blockState_step hpending] at hblock
    cases hblock
    exact stateAfter_combinational s r rest

end Sys2Proof.Machine
end

section
/-!
Serving every pending command (R93, R101, R107): an induction over the queue, each command's service being one step to
`stateAfter`. Non-interference and the success of runs follow from what the queue holds.
-/
namespace Sys2Proof.Machine

theorem serveAll_nil {s : State} (h : s.pending = []) : s.serveAll = s := by
  rw [State.serveAll, h]; rfl

theorem serveAll_cons {s : State} {r : Request} {rest : List Request} (h : s.pending = r :: rest) :
    s.serveAll = (stateAfter s r rest).serveAll := by
  rw [State.serveAll, h, List.length_cons, serve, blockState_step h]; rfl

theorem serveAll_pending_answers {l : List Request} {s : State} (h : s.pending = l) :
    s.serveAll.pending = [] ∧ s.serveAll.answers = s.answers ++ l.map answerTo := by
  induction l generalizing s with
  | nil => simp [serveAll_nil h, h]
  | cons r rest ih =>
    rw [serveAll_cons h]
    simpa using ih (stateAfter_pending s r rest)

/-- Settles O13: each command's service appends its own answer, by induction over the queue. -/
theorem serviceAnswersEachCommandAlone : Obligations.ServiceAnswersEachCommandAlone := fun _ =>
  serveAll_pending_answers rfl

/-- A requester's answers to a queue are the answers to its own commands in it (R101). -/
theorem filter_map_answerTo (l : List Request) (q : Nat) :
    (l.map answerTo).filter (fun a => a.requester == q) = (l.filter (fun r => r.requester == q)).map answerTo := by
  rw [List.filter_map]; rfl

/-- Settles O14: what a requester has after the service is its answers before and those to its own commands. -/
theorem requestersDoNotInterfere : Obligations.RequestersDoNotInterfere := by
  intro s t q hpending hanswers
  rw [(serveAll_pending_answers rfl).2, (serveAll_pending_answers rfl).2, List.filter_append, List.filter_append,
    filter_map_answerTo, filter_map_answerTo, hpending, hanswers]

/-- A run of all pending commands ends where their service does, or faults on a reserved `op` among them (R93). -/
theorem run_pending_cases {l : List Request} {s : State} (h : s.pending = l) :
    ((∀ r ∈ l, isReservedOp r.op = false) ∧ core.run l.length s = .next s.serveAll) ∨
    (¬ (∀ r ∈ l, isReservedOp r.op = false) ∧ ∃ φ, core.run l.length s = .fault φ) := by
  induction l generalizing s with
  | nil => exact .inl ⟨by simp, by rw [serveAll_nil h]; rfl⟩
  | cons r rest ih =>
    cases hr : isReservedOp r.op with
    | true => exact .inr ⟨by simp [hr], _, run_succ_of_fault (step_reserved h hr) _⟩
    | false =>
      rw [List.length_cons, run_succ_of_next (step_defined h hr).1, serveAll_cons h]
      simpa [hr] using ih (stateAfter_pending s r rest)

/-- Settles O15: both halves read off the two ways the run of all pending commands can end. -/
theorem runSucceedsExactlyWithoutReservedOps : Obligations.RunSucceedsExactlyWithoutReservedOps := by
  intro s
  rcases run_pending_cases (s := s) rfl with ⟨hnone, hrun⟩ | ⟨hsome, φ, hrun⟩
  · refine ⟨⟨fun _ => hnone, fun _ => ⟨_, hrun⟩⟩, fun t ht => ?_⟩
    rw [hrun] at ht; cases ht; rfl
  · refine ⟨⟨fun ⟨t, ht⟩ => ?_, fun hnone => absurd hnone hsome⟩, fun t ht => ?_⟩
    · rw [hrun] at ht; cases ht
    · rw [hrun] at ht; cases ht

end Sys2Proof.Machine
end

section
/-!
The two paths of the encoder agree (R64). Over a band that ends at most at half exponent 30 the fast path adds the
rounded mantissa to the fragment, which is the sum the reference encoder forms; D10's band, ending at 29, is one such.
-/
namespace Sys2Proof.Machine

/-- The magnitude of the cases from exponent 143 on, but for a NaN: infinity (R54, R55). -/
theorem encodeMagnitude_overflow (policy : NanNarrowPolicy) {e m : Nat} (he : 143 ≤ e) (hnan : e = 255 → m = 0) :
    encodeMagnitude policy e m = 0x7C00 := by
  unfold encodeMagnitude
  split_ifs <;> omega

/-- The magnitude of the normalized half range: a sum, so that a carry of the rounding moves into the exponent (R56). -/
theorem encodeMagnitude_normal (policy : NanNarrowPolicy) {e m : Nat} (hlo : 113 ≤ e) (hhi : e ≤ 142) :
    encodeMagnitude policy e m = (e - 112) * 2 ^ 10 + roundMant m := by
  rw [encodeMagnitude, if_neg (by omega), if_neg (by omega), if_neg (by omega), if_pos hlo, encodeNormal,
    Nat.shiftLeft_eq]

/-- The magnitude of the half subnormal range (R57). -/
theorem encodeMagnitude_subnormal (policy : NanNarrowPolicy) {e m : Nat} (hlo : 102 ≤ e) (hhi : e ≤ 112) :
    encodeMagnitude policy e m = encodeSubnormal e m := by
  rw [encodeMagnitude, if_neg (by omega), if_neg (by omega), if_neg (by omega), if_neg (by omega), if_pos hlo]

/-- Every case of the reference encoder but a NaN's, by the exponent (R54 to R58). -/
theorem encodeMagnitude_cases (policy : NanNarrowPolicy) (e m : Nat) (hnan : e = 255 → m = 0) :
    (143 ≤ e ∧ encodeMagnitude policy e m = 0x7C00) ∨
    (113 ≤ e ∧ e ≤ 142 ∧ encodeMagnitude policy e m = (e - 112) * 2 ^ 10 + roundMant m) ∨
    (102 ≤ e ∧ e ≤ 112 ∧ encodeMagnitude policy e m = encodeSubnormal e m) ∨
    (e ≤ 101 ∧ encodeMagnitude policy e m = 0) := by
  rcases (by omega : 143 ≤ e ∨ (113 ≤ e ∧ e ≤ 142) ∨ (102 ≤ e ∧ e ≤ 112) ∨ e ≤ 101) with
    he | ⟨hlo, hhi⟩ | ⟨hlo, hhi⟩ | he
  · exact .inl ⟨he, encodeMagnitude_overflow policy he hnan⟩
  · exact .inr (.inl ⟨hlo, hhi, encodeMagnitude_normal policy hlo hhi⟩)
  · exact .inr (.inr (.inl ⟨hlo, hhi, encodeMagnitude_subnormal policy hlo hhi⟩))
  · exact .inr (.inr (.inr ⟨he, encodeMagnitude_flush policy he⟩))

/-- The entry of a float's key in a table whose band ends at most at 30 (R25, R26). -/
theorem elutEntryFor_elutKeyOf_toNat {high : Nat} (hhigh : high ≤ 30) (f : FloatBits) :
    (elutEntryFor high (elutKeyOf f)).toNat =
      if 113 ≤ floatExp f ∧ floatExp f ≤ 112 + high
      then floatSign f * 2 ^ 15 + (floatExp f - 112) * 2 ^ 10 else 0 := by
  have he := floatExp_lt f
  have hexp : (elutKeyOf f).toNat % 256 = floatExp f := by rw [elutKeyOf_toNat]; omega
  have hsign : (elutKeyOf f).toNat / 256 = floatSign f := by rw [elutKeyOf_toNat]; omega
  rw [elutEntryFor_toNat hhigh, hexp, hsign]

/-- The fast path on a fragment is the reference encoder (R61, R64). -/
theorem fastEnc_eq_encodeArith (policy : NanNarrowPolicy) {f : FloatBits} {frag : ElutEntry}
    (hband : 113 ≤ floatExp f ∧ floatExp f ≤ 142)
    (hfrag : frag.toNat = floatSign f * 2 ^ 15 + (floatExp f - 112) * 2 ^ 10) :
    fastEnc frag (floatMant f) = encodeArith policy f := by
  rw [encodeArith_eq, encodeMagnitude_normal policy hband.1 hband.2, fastEnc, hfrag, Nat.add_assoc]

theorem encodeWithTable_elutEntryFor {high : Nat} (hhigh : high ≤ 30) (policy : NanNarrowPolicy) (f : FloatBits) :
    encodeWithTable (elutEntryFor high) policy f = encodeArith policy f := by
  have hentry := elutEntryFor_elutKeyOf_toNat hhigh f
  by_cases hband : 113 ≤ floatExp f ∧ floatExp f ≤ 112 + high
  · rw [if_pos hband] at hentry
    have hfrag : elutEntryFor high (elutKeyOf f) ≠ 0 := fun hzero => by
      rw [hzero, show (0 : ElutEntry).toNat = 0 from rfl] at hentry; omega
    exact (if_pos hfrag).trans (fastEnc_eq_encodeArith policy (by omega) hentry)
  · rw [if_neg hband] at hentry
    exact if_neg (not_not.2 (BitVec.eq_of_toNat_eq hentry))

theorem encodeTable_eq_encodeArith (policy : NanNarrowPolicy) (f : FloatBits) :
    encodeTable policy f = encodeArith policy f :=
  encodeWithTable_elutEntryFor (high := 29) (by decide) policy f

/-- Both paths of the sub-block give the reference encoder's half (R40, R64). -/
theorem fp16Encoder_eq (f : FloatBits) (path : ConversionPath) :
    fp16Encoder f path = encodeArith Config.nanNarrowPolicy f := by
  cases path with
  | table => exact encodeTable_eq_encodeArith _ f
  | arithmetic => rfl

/-- Settles O24: the paths agree, so the two operations drive the same result. -/
theorem encoderPathsAgree : Obligations.EncoderPathsAgree := by
  refine ⟨encodeTable_eq_encodeArith, fun f s => ?_⟩
  rw [exec_eq, exec_eq, resultOf, resultOf, fp16Encoder_eq, fp16Encoder_eq]

/-- Settles O25: a band that ends at 30 meets the same bound as D10's. -/
theorem widerElutBandChangesNoEncoding : Obligations.WiderElutBandChangesNoEncoding :=
  encodeWithTable_elutEntryFor (high := 30) le_rfl

end Sys2Proof.Machine
end

section
/-!
Rounding to the nearest multiple of `d`, ties to the even one. The one-adder rounding of the mantissa (R51) and the
shift of the half subnormal range (R57) are both this function.
-/
namespace Sys2Proof.Machine

/-- `x / d` rounded to the nearest natural number, ties to even. -/
def nearestEven (x d : Nat) : Nat :=
  x / d + if 2 * (x % d) > d ∨ (2 * (x % d) = d ∧ x / d % 2 = 1) then 1 else 0

/-- The rounding does not depend on the unit both numbers are counted in. -/
theorem nearestEven_mul_right (x d : Nat) {c : Nat} (hc : 0 < c) :
    nearestEven (x * c) (d * c) = nearestEven x d := by
  have hgt : 2 * (x % d * c) > d * c ↔ 2 * (x % d) > d := by
    rw [← Nat.mul_assoc, gt_iff_lt, Nat.mul_lt_mul_right hc]
  have heq : 2 * (x % d * c) = d * c ↔ 2 * (x % d) = d := by
    rw [← Nat.mul_assoc, Nat.mul_left_inj hc.ne']
  simp only [nearestEven, Nat.mul_div_mul_right _ _ hc, Nat.mul_mod_mul_right, hgt, heq]

/-- Whole multiples pass through the rounding, an even number of them, so that the tie rule is not disturbed. -/
theorem nearestEven_add_mul (x : Nat) {d k : Nat} (hd : 0 < d) (hk : k % 2 = 0) :
    nearestEven (k * d + x) d = k + nearestEven x d := by
  have hparity : (k + x / d) % 2 = x / d % 2 := by omega
  rw [nearestEven, Nat.add_comm (k * d), Nat.add_mul_div_right _ _ hd, Nat.add_mul_mod_self_right,
    Nat.add_comm (x / d), hparity, nearestEven, Nat.add_assoc]

/-- A multiple is not rounded. -/
theorem nearestEven_mul (k : Nat) {d : Nat} (hd : 0 < d) : nearestEven (k * d) d = k := by
  rw [nearestEven, Nat.mul_div_cancel k hd, Nat.mul_mod_left, if_neg (by omega), Nat.add_zero]

/-- Less than half a unit rounds to 0. -/
theorem nearestEven_eq_zero {x d : Nat} (h : 2 * x < d) : nearestEven x d = 0 := by
  rw [nearestEven, Nat.div_eq_of_lt (by omega), Nat.mod_eq_of_lt (by omega), if_neg (by omega)]

/-- `RoundMant` rounds the mantissa to a multiple of `2^13` (R51). -/
theorem roundMant_eq_nearestEven (m : Nat) : roundMant m = nearestEven m (2 ^ 13) := by
  rw [roundMant_eq_kept_add, nearestEven]
  congr 1
  exact if_congr (by omega) rfl rfl

/-- The half subnormal case divides by `2^(126-E)` and rounds to nearest, ties to even (R57). -/
theorem encodeSubnormal_eq_nearestEven {e m : Nat} (he : e ≤ 112) (hm : m < 8388608) :
    encodeSubnormal e m = nearestEven (2 ^ 23 + m) (2 ^ (126 - e)) := by
  have hhalf : 2 ^ (126 - e - 1) * 2 = 2 ^ (126 - e) := Nat.two_pow_pred_mul_two (by omega)
  rw [encodeSubnormal_eq hm, nearestEven, show 2 ^ 23 + m = 8388608 + m from rfl]
  congr 1
  exact if_congr (by omega) rfl rfl

end Sys2Proof.Machine
end

section
/-!
The finite cases of the encoder (R55 to R57), on both paths, and the thresholds of R65 (1) to (4) and (6).
-/
namespace Sys2Proof.Machine

/-- Both encode operations complete with the sign above the magnitude the reference encoder gives (R59, R64). -/
theorem encodesTo_of_magnitude {f : FloatBits} {x : Nat}
    (hx : encodeMagnitude Config.nanNarrowPolicy (floatExp f) (floatMant f) = x) :
    EncodesTo f (BitVec.ofNat 16 (floatSign f * 2 ^ 15 + x)) := by
  have harith := encodeArith_eq Config.nanNarrowPolicy f
  rw [hx] at harith
  exact encodesTo_of_paths ((encodeTable_eq_encodeArith _ f).trans harith) harith

/-- Settles O19: exponents from 143 to 254 have the magnitude of infinity. -/
theorem largeExponentOverflowsToInfinity : Obligations.LargeExponentOverflowsToInfinity := by
  intro f hlo hhi
  exact encodesTo_of_magnitude (encodeMagnitude_overflow _ hlo (by omega))

/-- Settles O20: the magnitude is the rebiased exponent plus the rounded mantissa, kept bits and increment. -/
theorem normalRangeRoundsWithCarryIntoExponent : Obligations.NormalRangeRoundsWithCarryIntoExponent := by
  intro f hlo hhi m kept roundUp
  have hmag := encodeMagnitude_normal Config.nanNarrowPolicy (m := m) hlo hhi
  rw [roundMant_eq_kept_add] at hmag
  rw [Nat.add_assoc, Nat.add_assoc]
  exact encodesTo_of_magnitude hmag

/-- Settles O21: the magnitude is the mantissa with its leading 1, divided and rounded to nearest, ties to even. -/
theorem subnormalRangeRoundsToNearestEven : Obligations.SubnormalRangeRoundsToNearestEven := by
  intro f hlo hhi n d roundUp q
  have hq : encodeSubnormal (floatExp f) (floatMant f) = q := encodeSubnormal_eq_nearestEven hhi (floatMant_lt f)
  exact ⟨hq ▸ encodeSubnormal_le hhi (floatMant_lt f),
    encodesTo_of_magnitude ((encodeMagnitude_subnormal _ hlo hhi).trans hq)⟩

/-- The mantissas that round up to 0x400: within half a unit of it, the tie being above an odd number (R51). -/
theorem roundMant_eq_1024_iff {m : Nat} (hm : m < 8388608) : roundMant m = 1024 ↔ 0x7FF000 ≤ m := by
  rw [roundMant_eq]
  omega

/-- Infinity is the largest magnitude but a NaN's, and it is that of exactly the floats from 65520 on: the exponents
above 142, and at 142 the mantissas that round up to 0x400 (R65 (2) and (6)). -/
theorem encodeMagnitude_infinity_iff (policy : NanNarrowPolicy) {e m : Nat} (hm : m < 8388608)
    (hnan : e = 255 → m = 0) :
    encodeMagnitude policy e m ≤ 0x7C00 ∧ (encodeMagnitude policy e m = 0x7C00 ↔ 0x477FF000 ≤ e * 2 ^ 23 + m) := by
  have hround := roundMant_le hm
  have hcarry := roundMant_eq_1024_iff hm
  rcases encodeMagnitude_cases policy e m hnan with ⟨he, hmag⟩ | ⟨hlo, hhi, hmag⟩ | ⟨hlo, hhi, hmag⟩ | ⟨he, hmag⟩
  · omega
  · omega
  · have hsub := encodeSubnormal_le hhi hm
    omega
  · omega

/-- From 65504 up to 65520: the largest finite half (R65 (3)). -/
theorem encodeMagnitude_from_65504 (policy : NanNarrowPolicy) {e m : Nat} (hm : m < 8388608)
    (hlo : 0x477FE000 ≤ e * 2 ^ 23 + m) (hhi : e * 2 ^ 23 + m ≤ 0x477FEFFF) :
    encodeMagnitude policy e m = 0x7BFF := by
  have hround := roundMant_eq m
  have hmag := encodeMagnitude_normal policy (e := e) (m := m) (by omega) (by omega)
  omega

/-- Up to `2^-25`, itself a tie that goes to the even 0: zero (R65 (4)). -/
theorem encodeMagnitude_to_flushTie (policy : NanNarrowPolicy) {e m : Nat} (ha : e * 2 ^ 23 + m ≤ 0x33000000) :
    encodeMagnitude policy e m = 0 := by
  by_cases he : e ≤ 101
  · exact encodeMagnitude_flush policy he
  · obtain ⟨rfl, rfl⟩ : e = 102 ∧ m = 0 := by omega
    rw [encodeMagnitude_subnormal policy le_rfl (by decide)]; rfl

/-- Just above `2^-25`: the smallest half subnormal (R65 (4)). -/
theorem encodeMagnitude_above_flushTie (policy : NanNarrowPolicy) {e m : Nat} (hm : m < 8388608)
    (ha : e * 2 ^ 23 + m = 0x33000001) : encodeMagnitude policy e m = 1 := by
  obtain ⟨rfl, rfl⟩ : e = 102 ∧ m = 1 := by omega
  rw [encodeMagnitude_subnormal policy le_rfl (by decide)]; rfl

/-- The sign of a float and the number below it (R12). -/
theorem float_toNat_sign_magnitude (f : FloatBits) :
    f.toNat / 2 ^ 31 = floatSign f ∧ f.toNat % 2 ^ 31 = floatExp f * 2 ^ 23 + floatMant f := by
  have hs := floatSign_lt f
  have he := floatExp_lt f
  have hm := floatMant_lt f
  rw [float_toNat]; omega

theorem floatIsNan_eq_false_iff (f : FloatBits) : floatIsNan f = false ↔ (floatExp f = 255 → floatMant f = 0) := by
  simp [floatIsNan]

/-- Settles O26: the result is the sign above a magnitude, and each threshold is a range of exponent and mantissa. -/
theorem encoderThresholds : Obligations.EncoderThresholds := by
  intro f path hfinite a sign r
  have hnan := (floatIsNan_eq_false_iff f).1 hfinite
  have hm := floatMant_lt f
  obtain ⟨hsign, ha⟩ := float_toNat_sign_magnitude f
  have hr : r = floatSign f * 2 ^ 15 + encodeMagnitude Config.nanNarrowPolicy (floatExp f) (floatMant f) := by
    rw [← encodeArith_toNat, ← fp16Encoder_eq f path]
  obtain ⟨hle, hinf⟩ := encodeMagnitude_infinity_iff Config.nanNarrowPolicy hm hnan
  refine ⟨by omega, fun h => ?_, fun hlo hhi => ?_, fun h => ?_, fun h => ?_, by omega⟩
  · rw [hr, hinf.2 (ha ▸ h), ← hsign]
  · rw [hr, encodeMagnitude_from_65504 _ hm (ha ▸ hlo) (ha ▸ hhi), ← hsign]
  · rw [hr, encodeMagnitude_to_flushTie _ (ha ▸ h), ← hsign, Nat.add_zero]
  · rw [hr, encodeMagnitude_above_flushTie _ hm (ha ▸ h), ← hsign]

end Sys2Proof.Machine
end

section
/-!
Values as natural numbers of the smallest units. A half's magnitude, in units of `2^-24`, is `q * 2^j` where the pattern
below its sign is `j * 2^10 + q`; the encoder's magnitude has this form with `q` the float's magnitude rounded to the
spacing of the halves of its exponent (R14, R15, R56 to R58).
-/
namespace Sys2Proof.Machine

theorem halfUnits_of_exp_zero {h : HalfBits} (he : halfExp h = 0) : halfUnits h = halfMant h := if_pos he

theorem halfUnits_of_exp_pos {h : HalfBits} (he : halfExp h ≠ 0) :
    halfUnits h = (1024 + halfMant h) * 2 ^ (halfExp h - 1) := if_neg he

theorem floatUnits_of_exp_pos {f : FloatBits} (he : floatExp f ≠ 0) :
    floatUnits f = (2 ^ 23 + floatMant f) * 2 ^ (floatExp f - 1) := if_neg he

/-- A half's units from the number below its sign: the exponent counts the spacing, from the first two binades on, which
share one (R14). -/
theorem halfUnits_of_magnitude {h : HalfBits} {j q : Nat}
    (hmag : halfExp h * 2 ^ 10 + halfMant h = j * 2 ^ 10 + q) (hq : q ≤ 2048) (hj : j = 0 ∨ 1024 ≤ q) :
    halfUnits h = q * 2 ^ j := by
  have hm := halfMant_lt h
  by_cases he : halfExp h = 0
  · obtain ⟨rfl, rfl⟩ : j = 0 ∧ q = halfMant h := by omega
    rw [halfUnits_of_exp_zero he, pow_zero, Nat.mul_one]
  · rw [halfUnits_of_exp_pos he]
    rcases (by omega : halfExp h = j + 1 ∨ halfExp h = j + 2) with hexp | hexp
    · rw [hexp, show q = 1024 + halfMant h by omega, Nat.add_sub_cancel]
    · rw [hexp, show q = 1024 * 2 by omega, show halfMant h = 0 by omega, Nat.mul_assoc, ← Nat.pow_succ']; rfl

/-- The halves with at least the spacing `2^j` are multiples of it; the others lie below the binade of that spacing. -/
theorem halfUnits_spacing (h : HalfBits) (j : Nat) : 2 ^ j ∣ halfUnits h ∨ halfUnits h < 1024 * 2 ^ j := by
  have hm := halfMant_lt h
  by_cases he : halfExp h = 0
  · have hpos := Nat.two_pow_pos j
    exact .inr (by rw [halfUnits_of_exp_zero he]; omega)
  · rw [halfUnits_of_exp_pos he]
    by_cases hj : j ≤ halfExp h - 1
    · exact .inl (Dvd.dvd.mul_left (pow_dvd_pow 2 hj) _)
    · have hbinade : 2 ^ (halfExp h - 1) * 2 ≤ 2 ^ j := by
        rw [← Nat.pow_succ]; exact Nat.pow_le_pow_right (by decide) (by omega)
      have hpos := Nat.two_pow_pos (halfExp h - 1)
      right
      calc (1024 + halfMant h) * 2 ^ (halfExp h - 1) < 2048 * 2 ^ (halfExp h - 1) :=
            Nat.mul_lt_mul_of_pos_right (by omega) hpos
        _ ≤ 1024 * 2 ^ j := by omega

/-- The spacing of the halves around a float of exponent field `e`, in units of `2^-149`. -/
def halfSpacing (e : Nat) : Nat := 2 ^ (e - 113) * 2 ^ 125

theorem halfSpacing_pos (e : Nat) : 0 < halfSpacing e := by unfold halfSpacing; positivity

theorem halfSpacing_of_le {e : Nat} (he : e ≤ 113) : halfSpacing e = 2 ^ 125 := by
  rw [halfSpacing, Nat.sub_eq_zero_of_le he, pow_zero, Nat.one_mul]

theorem halfSpacing_of_ge {e : Nat} (he : 113 ≤ e) : halfSpacing e = 2 ^ 13 * 2 ^ (e - 1) := by
  rw [halfSpacing, ← Nat.pow_add, ← Nat.pow_add]; congr 1; omega

/-- Normalized half range: the leading 1 is 1024 units of the spacing, above the rounded mantissa (R56). -/
theorem nearestEven_floatUnits_normal {f : FloatBits} (he : 113 ≤ floatExp f) :
    nearestEven (floatUnits f) (halfSpacing (floatExp f)) = 1024 + roundMant (floatMant f) := by
  rw [floatUnits_of_exp_pos (by omega), halfSpacing_of_ge he, nearestEven_mul_right _ _ (Nat.two_pow_pos _),
    show (2 : Nat) ^ 23 = 1024 * 2 ^ 13 from rfl, nearestEven_add_mul _ (by decide) (by decide),
    roundMant_eq_nearestEven]

/-- Half subnormal range: the spacing is the half's last unit (R57). -/
theorem nearestEven_floatUnits_subnormal {f : FloatBits} (hlo : 102 ≤ floatExp f) (hhi : floatExp f ≤ 112) :
    nearestEven (floatUnits f) (halfSpacing (floatExp f)) = encodeSubnormal (floatExp f) (floatMant f) := by
  have hsplit : 2 ^ 125 = 2 ^ (126 - floatExp f) * 2 ^ (floatExp f - 1) := by
    rw [← Nat.pow_add]; congr 1; omega
  rw [floatUnits_of_exp_pos (by omega), halfSpacing_of_le (by omega), hsplit,
    nearestEven_mul_right _ _ (Nat.two_pow_pos _), encodeSubnormal_eq_nearestEven hhi (floatMant_lt f)]

/-- Flushed floats are below half of the half's last unit (R58). -/
theorem nearestEven_floatUnits_flush {f : FloatBits} (he : floatExp f ≤ 101) :
    nearestEven (floatUnits f) (halfSpacing (floatExp f)) = 0 := by
  have hm := floatMant_lt f
  rw [halfSpacing_of_le (by omega)]
  apply nearestEven_eq_zero
  by_cases he0 : floatExp f = 0
  · rw [floatUnits, if_pos he0]; omega
  · have hpow : 2 ^ (floatExp f - 1) ≤ 2 ^ 100 := Nat.pow_le_pow_right (by decide) (by omega)
    have hprod : (2 ^ 23 + floatMant f) * 2 ^ (floatExp f - 1) ≤ (2 ^ 24 - 1) * 2 ^ 100 :=
      Nat.mul_le_mul (by omega) hpow
    rw [floatUnits_of_exp_pos he0]; omega

/-- Below exponent 143 the encoder rounds to the nearest multiple of the spacing, and its magnitude counts that
spacing's binades and the multiple, which is at most twice a binade's and at least a binade's but for the first (R56
to R58). -/
theorem encodeMagnitude_eq_nearestEven (policy : NanNarrowPolicy) {f : FloatBits} (he : floatExp f ≤ 142) :
    encodeMagnitude policy (floatExp f) (floatMant f) =
      (floatExp f - 113) * 2 ^ 10 + nearestEven (floatUnits f) (halfSpacing (floatExp f)) ∧
    nearestEven (floatUnits f) (halfSpacing (floatExp f)) ≤ 2048 ∧
    (floatExp f - 113 = 0 ∨ 1024 ≤ nearestEven (floatUnits f) (halfSpacing (floatExp f))) := by
  have hm := floatMant_lt f
  rcases encodeMagnitude_cases policy (floatExp f) (floatMant f) (by omega) with
    ⟨hlo, -⟩ | ⟨hlo, -, hmag⟩ | ⟨hlo, hhi, hmag⟩ | ⟨hhi, hmag⟩
  · omega
  · have hround := roundMant_le hm
    rw [hmag, nearestEven_floatUnits_normal hlo]; omega
  · have hsub := encodeSubnormal_le hhi hm
    rw [hmag, nearestEven_floatUnits_subnormal hlo hhi]; omega
  · rw [hmag, nearestEven_floatUnits_flush hhi]; omega

end Sys2Proof.Machine
end

section
/-!
Correct rounding (R65 (5)). Rounding to a multiple of the spacing is nearest among the multiples and among everything
below the float's binade, which together are all halves; the sign is the float's, and a half of the other sign is no
nearer than zero.
-/
namespace Sys2Proof.Machine

/-- `r` is at least as near to `x` as `y` is, and where a `y` other than `r` is as near, `tie` holds. -/
def NearerOrTie (x r y : ℤ) (tie : Prop) : Prop :=
  (x - r).natAbs ≤ (x - y).natAbs ∧ ((x - r).natAbs = (x - y).natAbs → y ≠ r → tie)

/-- The rounding is nearest among the multiples of `d`, and an even multiple where another is as near. -/
theorem nearestEven_nearest_multiple (x : Nat) {d : Nat} (hd : 0 < d) (k : Nat) :
    NearerOrTie x (nearestEven x d * d : Nat) (k * d : Nat) (nearestEven x d % 2 = 0) := by
  have hx : x / d * d + x % d = x := Nat.div_add_mod' x d
  have hlt : x % d < d := Nat.mod_lt x hd
  have hsucc : (x / d + 1) * d = x / d * d + d := Nat.succ_mul _ _
  have hk : k * d + d ≤ x / d * d ∨ k = x / d ∨ k = x / d + 1 ∨ x / d * d + 2 * d ≤ k * d := by
    rcases (by omega : k + 1 ≤ x / d ∨ k = x / d ∨ k = x / d + 1 ∨ x / d + 2 ≤ k) with h | h | h | h
    · exact .inl (by rw [← Nat.succ_mul]; exact Nat.mul_le_mul_right d h)
    · exact .inr (.inl h)
    · exact .inr (.inr (.inl h))
    · exact .inr (.inr (.inr (by rw [← Nat.add_mul]; exact Nat.mul_le_mul_right d h)))
  unfold NearerOrTie nearestEven
  split_ifs with hup
  · rw [hsucc]
    rcases hk with hk | rfl | rfl | hk <;> omega
  · rw [Nat.add_zero]
    rcases hk with hk | rfl | rfl | hk <;> omega

/-- Everything below the last multiple of `d` up to `x` is farther from `x` than the rounding. -/
theorem nearestEven_nearer_of_lt (x : Nat) {d y : Nat} (hd : 0 < d) (hy : y < x / d * d) (tie : Prop) :
    NearerOrTie x (nearestEven x d * d : Nat) y tie := by
  obtain ⟨hle, -⟩ := nearestEven_nearest_multiple x hd (x / d)
  have hfloor : x / d * d ≤ x := Nat.div_mul_le_self x d
  have hfar : ((x : ℤ) - (nearestEven x d * d : Nat)).natAbs < ((x : ℤ) - y).natAbs := by omega
  exact ⟨hfar.le, fun heq => absurd heq hfar.ne⟩

/-- A float of the normalized half range is at least the start of its binade, 1024 times the spacing (R56). -/
theorem le_floatUnits_div_halfSpacing {f : FloatBits} (he : 113 ≤ floatExp f) :
    1024 ≤ floatUnits f / halfSpacing (floatExp f) := by
  rw [Nat.le_div_iff_mul_le (halfSpacing_pos _), floatUnits_of_exp_pos (by omega), halfSpacing_of_ge he,
    ← Nat.mul_assoc]
  exact Nat.mul_le_mul_right _ (by omega)

/-- The rounding to the spacing is nearest among the magnitudes of all halves. -/
theorem nearestEven_nearest_half (f : FloatBits) (h : HalfBits) :
    NearerOrTie (floatUnits f)
      (nearestEven (floatUnits f) (halfSpacing (floatExp f)) * halfSpacing (floatExp f) : Nat)
      (halfUnits h * 2 ^ 125 : Nat) (nearestEven (floatUnits f) (halfSpacing (floatExp f)) % 2 = 0) := by
  have hd := halfSpacing_pos (floatExp f)
  by_cases hmul : 2 ^ (floatExp f - 113) ∣ halfUnits h
  · obtain ⟨k, hk⟩ := hmul
    have hunits : halfUnits h * 2 ^ 125 = k * halfSpacing (floatExp f) := by rw [hk, halfSpacing]; ring
    rw [hunits]
    exact nearestEven_nearest_multiple _ hd k
  · have he : 113 ≤ floatExp f := by
      by_contra hlow
      exact hmul (by rw [Nat.sub_eq_zero_of_le (by omega), pow_zero]; exact one_dvd _)
    have hbelow := (halfUnits_spacing h (floatExp f - 113)).resolve_left hmul
    apply nearestEven_nearer_of_lt _ hd
    calc halfUnits h * 2 ^ 125 < 1024 * 2 ^ (floatExp f - 113) * 2 ^ 125 :=
          Nat.mul_lt_mul_of_pos_right hbelow (by decide)
      _ = 1024 * halfSpacing (floatExp f) := by rw [halfSpacing, Nat.mul_assoc]
      _ ≤ _ := Nat.mul_le_mul_right _ (le_floatUnits_div_halfSpacing he)

/-- The fields of an encoded half (R59). -/
theorem encodeArith_fields (policy : NanNarrowPolicy) (f : FloatBits) :
    halfSign (encodeArith policy f) = floatSign f ∧
    halfExp (encodeArith policy f) * 2 ^ 10 + halfMant (encodeArith policy f) =
      encodeMagnitude policy (floatExp f) (floatMant f) := by
  have hs := floatSign_lt f
  have hmag := encodeMagnitude_lt policy (e := floatExp f) (floatMant_lt f)
  rw [halfSign_eq, halfExp_eq, halfMant_eq, encodeArith_toNat]
  omega

/-- The encoded half of a float below exponent 143 has the float's magnitude rounded to the spacing, and a mantissa of
the same parity as the multiple (R56 to R58). -/
theorem encodeArith_units {policy : NanNarrowPolicy} {f : FloatBits} (he : floatExp f ≤ 142) :
    halfUnits (encodeArith policy f) * 2 ^ 125 =
      nearestEven (floatUnits f) (halfSpacing (floatExp f)) * halfSpacing (floatExp f) ∧
    halfMant (encodeArith policy f) % 2 = nearestEven (floatUnits f) (halfSpacing (floatExp f)) % 2 := by
  obtain ⟨-, hmag⟩ := encodeArith_fields policy f
  obtain ⟨hround, hq, hj⟩ := encodeMagnitude_eq_nearestEven policy he
  rw [hround] at hmag
  refine ⟨?_, by omega⟩
  rw [halfUnits_of_magnitude hmag hq hj, halfSpacing, Nat.mul_assoc]

/-- A half's unit in the float's (R14, R15). -/
theorem halfUnit_eq : (2 : ℚ) ^ (-24 : ℤ) = 2 ^ 125 * (2 : ℚ) ^ (-149 : ℤ) := by norm_num

/-- A magnitude with its sign. -/
def signedInt (negative : Bool) (n : Nat) : ℤ := if negative then -(n : ℤ) else n

theorem floatNumber_eq (f : FloatBits) :
    floatNumber f = (signedInt (floatSign f == 1) (floatUnits f) : ℚ) * (2 : ℚ) ^ (-149 : ℤ) := by
  rw [floatNumber, signedValue, floatMagnitude_eq, signedInt]
  split_ifs <;> push_cast <;> ring

theorem halfNumber_eq (h : HalfBits) :
    halfNumber h = (signedInt (halfSign h == 1) (halfUnits h * 2 ^ 125) : ℚ) * (2 : ℚ) ^ (-149 : ℤ) := by
  rw [halfNumber, signedValue, halfMagnitude_eq, signedInt, halfUnit_eq]
  split_ifs <;> push_cast <;> ring

/-- A float's and a half's distance is a natural number of `2^-149`. -/
theorem abs_floatNumber_sub_halfNumber (f : FloatBits) (h : HalfBits) :
    |floatNumber f - halfNumber h| =
      ((signedInt (floatSign f == 1) (floatUnits f) -
        signedInt (halfSign h == 1) (halfUnits h * 2 ^ 125)).natAbs : ℚ) * (2 : ℚ) ^ (-149 : ℤ) := by
  rw [floatNumber_eq, halfNumber_eq, ← sub_mul, abs_mul, abs_of_pos (a := (2 : ℚ) ^ (-149 : ℤ)) (by positivity),
    Nat.cast_natAbs, Int.cast_abs, Int.cast_sub]

/-- Between numbers of one sign the distance is that of their magnitudes. -/
theorem natAbs_signedInt_sub_same (s : Bool) (x y : Nat) :
    (signedInt s x - signedInt s y).natAbs = ((x : ℤ) - y).natAbs := by
  cases s with
  | false => simp [signedInt]
  | true => simp [signedInt]; omega

/-- Between numbers of opposite signs the distance is the sum of their magnitudes. -/
theorem natAbs_signedInt_sub_opposite {s t : Bool} (hst : s ≠ t) (x y : Nat) :
    (signedInt s x - signedInt t y).natAbs = x + y := by
  obtain rfl : t = !s := Bool.eq_not_of_ne (Ne.symm hst)
  cases s with
  | false => simp [signedInt]; omega
  | true => simp [signedInt]; omega

/-- What holds of the magnitudes `y` and 0 holds of `y` with either sign, where `x` and `r` have one sign: a number of
the other sign is no nearer than zero. -/
theorem NearerOrTie.signed {x r y : Nat} {tie : Prop} (hy : NearerOrTie x r y tie)
    (hzero : NearerOrTie x r (0 : Nat) tie) (s t : Bool) :
    NearerOrTie (signedInt s x) (signedInt s r) (signedInt t y) tie := by
  by_cases hst : s = t
  · subst hst
    obtain ⟨hle, htie⟩ := hy
    rw [NearerOrTie, natAbs_signedInt_sub_same, natAbs_signedInt_sub_same]
    exact ⟨hle, fun heq hne => htie heq fun hsame => hne (by rw [Int.ofNat_inj.1 hsame])⟩
  · obtain ⟨hle, htie⟩ := hzero
    rw [NearerOrTie, natAbs_signedInt_sub_same, natAbs_signedInt_sub_opposite hst]
    refine ⟨by omega, fun heq hne => htie (by omega) fun hr => hne ?_⟩
    obtain ⟨rfl, rfl⟩ : r = 0 ∧ y = 0 := by omega
    simp [signedInt]

/-- In numbers: the encoded half of a float below exponent 143 is nearest among all halves, and where a half of another
number is as near, its mantissa is even (R65 (5)). -/
theorem encodeArith_nearest {policy : NanNarrowPolicy} {f : FloatBits} (he : floatExp f ≤ 142) (h : HalfBits) :
    NearerOrTie (signedInt (floatSign f == 1) (floatUnits f))
      (signedInt (halfSign (encodeArith policy f) == 1) (halfUnits (encodeArith policy f) * 2 ^ 125))
      (signedInt (halfSign h == 1) (halfUnits h * 2 ^ 125)) (halfMant (encodeArith policy f) % 2 = 0) := by
  obtain ⟨hunits, hparity⟩ := encodeArith_units (policy := policy) he
  obtain ⟨hsign, -⟩ := encodeArith_fields policy f
  have hzero := nearestEven_nearest_half f 0
  rw [show halfUnits 0 * 2 ^ 125 = 0 from rfl] at hzero
  rw [hunits, hparity, hsign]
  exact (nearestEven_nearest_half f h).signed hzero _ _

/-- Settles O27: the numbers are whole units of `2^-149`, and in those the encoder's rounding is nearest, ties to
even. -/
theorem encoderGivesTheNearestHalf : Obligations.EncoderGivesTheNearestHalf := by
  intro f path hsmall r
  obtain ⟨-, ha⟩ := float_toNat_sign_magnitude f
  rw [ha] at hsmall
  have hm := floatMant_lt f
  have hr : r = encodeArith Config.nanNarrowPolicy f := fp16Encoder_eq f path
  obtain ⟨-, hmag⟩ := encodeArith_fields Config.nanNarrowPolicy f
  obtain ⟨hle, hinf⟩ := encodeMagnitude_infinity_iff Config.nanNarrowPolicy hm (e := floatExp f) (by omega)
  rw [hr]
  refine ⟨(halfIsFinite_iff _).2 (by omega), fun h _ => ?_⟩
  obtain ⟨hnear, htie⟩ := encodeArith_nearest (policy := Config.nanNarrowPolicy) (f := f) (by omega) h
  have hunit : (0 : ℚ) < (2 : ℚ) ^ (-149 : ℤ) := by positivity
  rw [abs_floatNumber_sub_halfNumber, abs_floatNumber_sub_halfNumber]
  refine ⟨mul_le_mul_of_nonneg_right (Nat.cast_le.2 hnear) hunit.le, fun heq hne => htie ?_ fun hsame => hne ?_⟩
  · exact Nat.cast_injective (mul_right_cancel₀ hunit.ne' heq)
  · rw [halfNumber_eq, halfNumber_eq, hsame]

end Sys2Proof.Machine
end

section
/-!
The decoder's cases with exponents 0 to 30 (R68, R69), the agreement of its paths (R76), and its exactness: the widened
float has the half's units, counted `2^125` times finer (R75).
-/
namespace Sys2Proof.Machine

/-- Case half subnormal: the leading 1 fixes the exponent, and the bits below it are the mantissa (R68). -/
theorem decodeFields_subnormal {m : Nat} (hm : m ≠ 0) :
    decodeExp 0 m = msb m + 103 ∧ decodeMant 0 m = (m - 2 ^ msb m) * 2 ^ (23 - msb m) := by
  simp [decodeExp, decodeMant, hm]

/-- Case normalized half: the exponent is rebiased and the mantissa widened (R69). -/
theorem decodeFields_normal {e : Nat} (m : Nat) (hlo : 1 ≤ e) (hhi : e ≤ 30) :
    decodeExp e m = e + 112 ∧ decodeMant e m = m * 2 ^ 13 := by
  have h0 : e ≠ 0 := by omega
  have h31 : e ≠ 31 := by omega
  simp [decodeExp, decodeMant, h0, h31]

/-- Settles O31: `p` is the highest set bit, which a ten-bit mantissa has at 9 or below. -/
theorem subnormalWidensToNormalized : Obligations.SubnormalWidensToNormalized := by
  intro h p he hlo hhi
  have hp : msb (halfMant h) = p := msb_eq hlo hhi
  have hm : halfMant h ≠ 0 := by have hpos := Nat.two_pow_pos p; omega
  obtain ⟨hexp, hmant⟩ := decodeFields_subnormal hm
  refine ⟨hp ▸ msb_le (halfMant_lt h), ?_⟩
  rw [Nat.add_assoc]
  exact decodesTo_of_magnitude (by rw [he, hexp, hmant, hp])

/-- Settles O32: the fields of a normalized half, rebiased and widened. -/
theorem normalWidensByRebiasing : Obligations.NormalWidensByRebiasing := by
  intro h hlo hhi
  obtain ⟨hexp, hmant⟩ := decodeFields_normal (halfMant h) hlo hhi
  rw [Nat.add_assoc]
  exact decodesTo_of_magnitude (by rw [hexp, hmant])

/-- Both paths of the sub-block give the reference decoder's float (R40, R76). -/
theorem fp16Decoder_eq (h : HalfBits) (path : ConversionPath) : fp16Decoder h path = decodeArith h := by
  cases path with
  | table => exact lutRead_eq_decodeArith h
  | arithmetic => rfl

/-- Settles O35: LUT holds the reference decoder, and neither operation reads its ignored field. -/
theorem decoderPathsAgree : Obligations.DecoderPathsAgree := by
  refine ⟨lutRead_eq_decodeArith, fun h x y s => ?_⟩
  rw [exec_decT, exec_decA, lutRead_eq_decodeArith]

/-- A half's number below the sign is its spacing's binades and its multiple of that spacing (R14). -/
theorem halfUnits_eq_mul_spacing (h : HalfBits) :
    ∃ q, halfExp h * 2 ^ 10 + halfMant h = (halfExp h - 1) * 2 ^ 10 + q ∧ halfUnits h = q * 2 ^ (halfExp h - 1) := by
  by_cases he : halfExp h = 0
  · exact ⟨halfMant h, by rw [he], by rw [halfUnits_of_exp_zero he, he, pow_zero, Nat.mul_one]⟩
  · exact ⟨1024 + halfMant h, by omega, halfUnits_of_exp_pos he⟩

/-- Widening a half subnormal keeps the magnitude: the leading 1 and the bits below it are the mantissa again (R68). -/
theorem floatUnits_decodeArith_subnormal {h : HalfBits} (he : halfExp h = 0) (hm : halfMant h ≠ 0) :
    floatUnits (decodeArith h) = halfMant h * 2 ^ 125 := by
  obtain ⟨-, hexp, hmant⟩ := decodeArith_fields h
  obtain ⟨hexp', hmant'⟩ := decodeFields_subnormal hm
  rw [he, hexp'] at hexp
  rw [he, hmant'] at hmant
  have hlo := (msb_spec hm).1
  have hp := msb_le (halfMant_lt h)
  have hone : (2 : Nat) ^ 23 = 2 ^ msb (halfMant h) * 2 ^ (23 - msb (halfMant h)) := by
    rw [← Nat.pow_add, Nat.add_sub_cancel' (by omega)]
  have hscale : 2 ^ (23 - msb (halfMant h)) * 2 ^ (msb (halfMant h) + 103 - 1) = 2 ^ 125 := by
    rw [← Nat.pow_add]; congr 1; omega
  rw [floatUnits_of_exp_pos (by omega), hexp, hmant, hone, ← Nat.add_mul, Nat.add_sub_cancel' hlo, Nat.mul_assoc,
    hscale]

/-- Widening a normalized half keeps the magnitude (R69). -/
theorem floatUnits_decodeArith_normal {h : HalfBits} (hlo : 1 ≤ halfExp h) (hhi : halfExp h ≤ 30) :
    floatUnits (decodeArith h) = (1024 + halfMant h) * 2 ^ (halfExp h - 1) * 2 ^ 125 := by
  obtain ⟨-, hexp, hmant⟩ := decodeArith_fields h
  obtain ⟨hexp', hmant'⟩ := decodeFields_normal (halfMant h) hlo hhi
  rw [hexp'] at hexp
  rw [hmant'] at hmant
  have hscale : 2 ^ 13 * 2 ^ (halfExp h + 112 - 1) = 2 ^ (halfExp h - 1) * 2 ^ 125 := by
    rw [← Nat.pow_add, ← Nat.pow_add]; congr 1; omega
  rw [floatUnits_of_exp_pos (by omega), hexp, hmant, show (2 : Nat) ^ 23 = 1024 * 2 ^ 13 from rfl, ← Nat.add_mul,
    Nat.mul_assoc, hscale, Nat.mul_assoc]

/-- Below exponent 31 widening keeps the magnitude (R75). -/
theorem floatUnits_decodeArith {h : HalfBits} (he : halfExp h ≠ 31) :
    floatUnits (decodeArith h) = halfUnits h * 2 ^ 125 := by
  have hlt := halfExp_lt h
  by_cases h0 : halfExp h = 0
  · rw [halfUnits_of_exp_zero h0]
    by_cases hm : halfMant h = 0
    · obtain ⟨-, hexp, hmant⟩ := decodeArith_fields h
      rw [h0, hm, decodeFields_zero.1] at hexp
      rw [h0, hm, decodeFields_zero.2] at hmant
      rw [hm, floatUnits, if_pos hexp, hmant, Nat.zero_mul]
    · exact floatUnits_decodeArith_subnormal h0 hm
  · rw [halfUnits_of_exp_pos h0]
    exact floatUnits_decodeArith_normal (by omega) (by omega)

/-- A finite half and its float have one magnitude (R14, R15). -/
theorem floatMagnitude_decodeArith {h : HalfBits} (he : halfExp h ≠ 31) :
    floatMagnitude (decodeArith h) = halfMagnitude h := by
  rw [floatMagnitude_eq, floatUnits_decodeArith he, halfMagnitude_eq, halfUnit_eq, ← mul_assoc]
  push_cast; rfl

/-- The exponents the reference decoder gives, by the class of the half (R67 to R71). -/
theorem decodeExp_cases (e m : Nat) :
    (e = 0 ∧ m = 0 ∧ decodeExp e m = 0) ∨ (e = 0 ∧ m ≠ 0 ∧ decodeExp e m = msb m + 103) ∨
    (e = 31 ∧ decodeExp e m = 255) ∨ (e ≠ 0 ∧ e ≠ 31 ∧ decodeExp e m = e + 112) := by
  generalize hx : decodeExp e m = x
  unfold decodeExp at hx
  split_ifs at hx <;> omega

/-- The widened float has exponent 255 for the half infinities and NaNs alone (R67 to R71). -/
theorem floatExp_decodeArith_eq_255_iff (h : HalfBits) : floatExp (decodeArith h) = 255 ↔ halfExp h = 31 := by
  obtain ⟨-, hexp, -⟩ := decodeArith_fields h
  have he := halfExp_lt h
  have hp := msb_le (halfMant_lt h)
  have hcases := decodeExp_cases (halfExp h) (halfMant h)
  omega

/-- The widened float's exponent is at least 103 but for the zeros: no half widens to a float subnormal (R67 to R71). -/
theorem floatExp_decodeArith_eq_zero_iff (h : HalfBits) :
    floatExp (decodeArith h) = 0 ↔ (halfExp h = 0 ∧ halfMant h = 0) := by
  obtain ⟨-, hexp, -⟩ := decodeArith_fields h
  have hcases := decodeExp_cases (halfExp h) (halfMant h)
  omega

/-- Settles O36: finite halves keep sign and magnitude, exponent 31 keeps its exponent of ones and its payload. -/
theorem decoderIsExact : Obligations.DecoderIsExact := by
  intro h path
  obtain ⟨hsign, -, -⟩ := decodeArith_fields h
  rw [fp16Decoder_eq, floatValue, halfValue, hsign]
  by_cases he : halfExp h = 31
  · obtain ⟨hexp, hmant⟩ := decodeArith_fields_allOnes he
    simp [he, hexp, hmant]
  · rw [if_neg (mt (floatExp_decodeArith_eq_255_iff h).1 he), if_neg he, floatMagnitude_decodeArith he]

end Sys2Proof.Machine
end

section
/-!
The round trip (R66). A half that is no NaN widens to a whole multiple of its spacing, which the encoder does not
round; a NaN's payload comes back as the policy leaves it.
-/
namespace Sys2Proof.Machine

/-- The spacing around a widened finite half is the half's own (R68, R69). -/
theorem floatExp_decodeArith_sub {h : HalfBits} (he : halfExp h ≠ 31) :
    floatExp (decodeArith h) ≤ 142 ∧ floatExp (decodeArith h) - 113 = halfExp h - 1 := by
  obtain ⟨-, hexp, -⟩ := decodeArith_fields h
  have he' := halfExp_lt h
  have hp := msb_le (halfMant_lt h)
  have hcases := decodeExp_cases (halfExp h) (halfMant h)
  omega

/-- The encoder's magnitude for a widened half that is no NaN is the half's own. -/
theorem encodeMagnitude_decodeArith (policy : NanNarrowPolicy) {h : HalfBits} (hnan : halfIsNan h = false) :
    encodeMagnitude policy (floatExp (decodeArith h)) (floatMant (decodeArith h)) =
      halfExp h * 2 ^ 10 + halfMant h := by
  by_cases he : halfExp h = 31
  · have hm : halfMant h = 0 := by simpa [halfIsNan, he] using hnan
    obtain ⟨hexp, hmant⟩ := decodeArith_fields_allOnes he
    rw [encodeMagnitude_infinity policy hexp (by rw [hmant, hm, Nat.zero_mul]), he, hm]; rfl
  · obtain ⟨hle, hbinade⟩ := floatExp_decodeArith_sub he
    obtain ⟨q, hq, hunits⟩ := halfUnits_eq_mul_spacing h
    rw [(encodeMagnitude_eq_nearestEven policy hle).1, halfSpacing, floatUnits_decodeArith he,
      nearestEven_mul_right _ _ (by decide), hbinade, hunits, nearestEven_mul _ (Nat.two_pow_pos _), hq]

/-- The encoder's magnitude for a widened NaN is the policy's payload of its own payload. -/
theorem encodeMagnitude_decodeArith_nan (policy : NanNarrowPolicy) {h : HalfBits} (hnan : halfIsNan h = true) :
    encodeMagnitude policy (floatExp (decodeArith h)) (floatMant (decodeArith h)) =
      halfExp h * 2 ^ 10 + nanPayload policy (halfMant h * 2 ^ 13) := by
  obtain ⟨he, hm⟩ := (halfIsNan_iff h).1 hnan
  obtain ⟨hexp, hmant⟩ := decodeArith_fields_allOnes he
  rw [hmant, encodeMagnitude_nan policy hexp (by omega), he]; rfl

/-- The sign survives the round trip, so the pattern does exactly when the magnitude does. -/
theorem encodeArith_decodeArith_eq_iff (policy : NanNarrowPolicy) (h : HalfBits) :
    encodeArith policy (decodeArith h) = h ↔
      encodeMagnitude policy (floatExp (decodeArith h)) (floatMant (decodeArith h)) =
        halfExp h * 2 ^ 10 + halfMant h := by
  obtain ⟨hsign, -, -⟩ := decodeArith_fields h
  rw [← BitVec.toNat_inj, encodeArith_toNat, hsign, half_toNat h]
  omega

theorem encodeArith_decodeArith_of_not_nan (policy : NanNarrowPolicy) {h : HalfBits} (hnan : halfIsNan h = false) :
    encodeArith policy (decodeArith h) = h :=
  (encodeArith_decodeArith_eq_iff policy h).2 (encodeMagnitude_decodeArith policy hnan)

/-- A NaN survives the round trip exactly when the policy keeps its payload. -/
theorem encodeArith_decodeArith_nan_iff (policy : NanNarrowPolicy) {h : HalfBits} (hnan : halfIsNan h = true) :
    encodeArith policy (decodeArith h) = h ↔ nanPayload policy (halfMant h * 2 ^ 13) = halfMant h := by
  rw [encodeArith_decodeArith_eq_iff, encodeMagnitude_decodeArith_nan policy hnan, Nat.add_left_cancel_iff]

/-- This hardware's policy keeps every widened payload, which is never 0 (R53). -/
theorem encodeArith_decodeArith (h : HalfBits) : encodeArith Config.nanNarrowPolicy (decodeArith h) = h := by
  cases hnan : halfIsNan h with
  | false => exact encodeArith_decodeArith_of_not_nan _ hnan
  | true =>
    have hm := ((halfIsNan_iff h).1 hnan).2
    rw [encodeArith_decodeArith_nan_iff _ hnan, Config.nanNarrowPolicy, nanPayload_truncSetLsb,
      Nat.mul_div_cancel _ (by decide), if_neg hm]

/-- Settles O28: a decode operation answers `DecodeArith(h)`, and the encoder gives `h` back for it. -/
theorem everyHalfSurvivesTheRoundTrip : Obligations.EveryHalfSurvivesTheRoundTrip := by
  intro h s x i hi
  exact ⟨_, decodesTo_decodeArith h s x i hi,
    encodesTo_of_paths ((encodeTable_eq_encodeArith _ _).trans (encodeArith_decodeArith h))
      (encodeArith_decodeArith h)⟩

/-- Settles O37: the encoder gives each half back from its float. -/
theorem decoderIsInjective : Obligations.DecoderIsInjective := by
  intro g h path path' heq
  rw [fp16Decoder_eq, fp16Decoder_eq] at heq
  calc g = encodeArith Config.nanNarrowPolicy (decodeArith g) := (encodeArith_decodeArith g).symm
    _ = h := by rw [heq, encodeArith_decodeArith]

/-- Forcing bit 9 of a ten-bit payload keeps it exactly when the bit is set. -/
theorem or_quietBit_eq_iff {m : Nat} (hm : m < 1024) : m ||| 0x200 = m ↔ m / 2 ^ 9 ≠ 0 := by
  have hset {low : Nat} (hlow : low < 2 ^ 9) : low ||| 0x200 = 0x200 + low :=
    (Nat.or_comm _ _).trans (Nat.shiftLeft_add_eq_or_of_lt hlow 1).symm
  by_cases hbit : m < 2 ^ 9
  · rw [hset hbit]; omega
  · obtain ⟨low, rfl⟩ := Nat.exists_eq_add_of_le (Nat.le_of_not_lt hbit)
    have hlow : low < 2 ^ 9 := by omega
    have hidem : 2 ^ 9 + low ||| 0x200 = 2 ^ 9 + low := by
      rw [show 2 ^ 9 + low = low ||| 0x200 from (hset hlow).symm, Nat.or_assoc, Nat.or_self]
    rw [hidem]; omega

/-- Settles O29: only a NaN's payload can change, and forcing its top bit changes it exactly when the bit was 0. -/
theorem quietPolicyLosesExactlyNansWithTopBitClear : Obligations.QuietPolicyLosesExactlyNansWithTopBitClear := by
  intro h
  cases hnan : halfIsNan h with
  | false => simp [encodeArith_decodeArith_of_not_nan _ hnan]
  | true =>
    rw [ne_eq, encodeArith_decodeArith_nan_iff _ hnan, nanPayload_quietTrunc, Nat.mul_div_cancel _ (by decide),
      or_quietBit_eq_iff (halfMant_lt h)]
    simp

end Sys2Proof.Machine
end

section
/-!
The classifier against itself (R85) and against the decoder (R86).
-/
namespace Sys2Proof.Machine

/-- Flipping the sign bit flips the sign field and no other (R10). -/
theorem half_fields_flipSign (h : HalfBits) :
    halfIsNegative (h ^^^ 0x8000#16) = !halfIsNegative h ∧ halfExp (h ^^^ 0x8000#16) = halfExp h ∧
      halfMant (h ^^^ 0x8000#16) = halfMant h := by
  have hmag : ((h ^^^ 0x8000#16) &&& 0x7FFF#16).toNat = (h &&& 0x7FFF#16).toNat := by
    rw [BitVec.toNat_and, BitVec.toNat_xor, Nat.and_xor_distrib_right,
      show (0x8000#16).toNat &&& (0x7FFF#16).toNat = 0 from rfl, Nat.xor_zero, BitVec.toNat_and]
  rw [toNat_and_magnitudeMask, toNat_and_magnitudeMask] at hmag
  have hm := halfMant_lt h
  have hm' := halfMant_lt (h ^^^ 0x8000#16)
  refine ⟨?_, by omega, by omega⟩
  simp [halfIsNegative_eq]

/-- An exponent that is not both 0 and 31 puts a pattern in one of the five classes (R85). -/
theorem count_classes : ∀ exp0 exp31 mant0 : Bool, (exp0 = true → exp31 = false) →
    [exp0 && mant0, exp0 && !mant0, !exp0 && !exp31, exp31 && mant0, exp31 && !mant0].count true = 1 := by
  decide

/-- Settles O40: the classes are the cases of the exponent (0, 31, or between) and of the mantissa (0 or not). -/
theorem classesPartitionThePatterns : Obligations.ClassesPartitionThePatterns := by
  intro h c
  obtain ⟨hneg, hexp, hmant⟩ := half_fields_flipSign h
  refine ⟨?partition, ?finite, ?notFinite, ?flip⟩
  case partition =>
    exact count_classes (halfExp h == 0) (halfExp h == 31) (halfMant h == 0) (by simp +contextual)
  case finite =>
    simp only [c, halfClassifier, halfIsFinite_iff, halfIsZero_iff, halfIsDenormalized_iff, halfIsNormalized_iff]
    omega
  case notFinite =>
    simp only [c, halfClassifier, ← Bool.not_eq_true, halfIsFinite_iff, halfIsInfinity_iff, halfIsNan_iff]
    omega
  case flip =>
    simp only [c, halfClassifier, hneg, halfIsZero, halfIsFinite, halfIsNormalized, halfIsDenormalized,
      halfIsInfinity, halfIsNan, hexp, hmant]

/-- Units below 1024, which is `2^-14`, are the exponent 0's; no units are the zeros' (R14). -/
theorem halfUnits_ranges (h : HalfBits) :
    (halfUnits h < 1024 ↔ halfExp h = 0) ∧ (halfUnits h = 0 ↔ halfExp h = 0 ∧ halfMant h = 0) := by
  have hm := halfMant_lt h
  by_cases he : halfExp h = 0
  · rw [halfUnits_of_exp_zero he]; omega
  · have hle : 1024 + halfMant h ≤ halfUnits h := by
      rw [halfUnits_of_exp_pos he]; exact Nat.le_mul_of_pos_right _ (Nat.two_pow_pos _)
    omega

theorem halfMagnitude_lt_iff (h : HalfBits) : halfMagnitude h < (2 : ℚ) ^ (-14 : ℤ) ↔ halfExp h = 0 := by
  have hunit : (2 : ℚ) ^ (-14 : ℤ) = (1024 : ℕ) * (2 : ℚ) ^ (-24 : ℤ) := by norm_num
  rw [halfMagnitude_eq, hunit, mul_lt_mul_iff_left₀ (by positivity), Nat.cast_lt, (halfUnits_ranges h).1]

theorem halfMagnitude_eq_zero_iff (h : HalfBits) : halfMagnitude h = 0 ↔ (halfExp h = 0 ∧ halfMant h = 0) := by
  have hunit : (2 : ℚ) ^ (-24 : ℤ) ≠ 0 := by positivity
  rw [halfMagnitude_eq, mul_eq_zero, or_iff_left hunit, Nat.cast_eq_zero, (halfUnits_ranges h).2]

/-- A widened half infinity or NaN has a mantissa exactly when the half has one (R70, R71). -/
theorem floatMant_decodeArith_eq_zero_iff {h : HalfBits} (he : halfExp h = 31) :
    floatMant (decodeArith h) = 0 ↔ halfMant h = 0 := by
  rw [(decodeArith_fields_allOnes he).2]; omega

/-- A widened float of exponent 0 is a zero (R67). -/
theorem floatMant_eq_zero_of_floatExp_decodeArith {h : HalfBits} (he : floatExp (decodeArith h) = 0) :
    floatMant (decodeArith h) = 0 := by
  obtain ⟨-, -, hmant⟩ := decodeArith_fields h
  obtain ⟨he0, hm0⟩ := (floatExp_decodeArith_eq_zero_iff h).1 he
  rw [hmant, he0, hm0, decodeFields_zero.2]

theorem floatIsNan_decodeArith (h : HalfBits) : floatIsNan (decodeArith h) = halfIsNan h := by
  rw [Bool.eq_iff_iff, halfIsNan_iff, floatIsNan, Bool.and_eq_true, beq_iff_eq, bne_iff_ne,
    floatExp_decodeArith_eq_255_iff]
  exact and_congr_right fun he => (floatMant_decodeArith_eq_zero_iff he).not

theorem floatIsInfinity_decodeArith (h : HalfBits) : floatIsInfinity (decodeArith h) = halfIsInfinity h := by
  rw [Bool.eq_iff_iff, halfIsInfinity_iff, floatIsInfinity, Bool.and_eq_true, beq_iff_eq, beq_iff_eq,
    floatExp_decodeArith_eq_255_iff]
  exact and_congr_right floatMant_decodeArith_eq_zero_iff

theorem floatIsZero_decodeArith (h : HalfBits) : floatIsZero (decodeArith h) = halfIsZero h := by
  rw [Bool.eq_iff_iff, halfIsZero_iff, floatIsZero, Bool.and_eq_true, beq_iff_eq, beq_iff_eq,
    and_iff_left_of_imp floatMant_eq_zero_of_floatExp_decodeArith, floatExp_decodeArith_eq_zero_iff]

theorem floatIsFinite_decodeArith (h : HalfBits) : floatIsFinite (decodeArith h) = halfIsFinite h := by
  rw [Bool.eq_iff_iff, halfIsFinite_iff, floatIsFinite, bne_iff_ne, ne_eq, floatExp_decodeArith_eq_255_iff]

theorem floatIsSubnormal_decodeArith (h : HalfBits) : floatIsSubnormal (decodeArith h) = false := by
  rw [← Bool.not_eq_true, floatIsSubnormal, Bool.and_eq_true, beq_iff_eq, bne_iff_ne]
  exact fun ⟨he, hm⟩ => hm (floatMant_eq_zero_of_floatExp_decodeArith he)

theorem getLsbD_decodeArith (h : HalfBits) : (decodeArith h).getLsbD 31 = halfIsNegative h := by
  have hsign := halfSign_lt h
  rw [BitVec.getLsbD, Nat.testBit_eq_decide_div_mod_eq, decodeArith_toNat_div, Nat.mod_eq_of_lt hsign]; rfl

/-- The half subnormals are the finite numbers other than 0 below `2^-14` (R14). -/
theorem halfIsDenormalized_iff_magnitude (h : HalfBits) :
    halfIsDenormalized h = true ↔
      (halfIsFinite h = true ∧ halfMagnitude h ≠ 0 ∧ halfMagnitude h < (2 : ℚ) ^ (-14 : ℤ)) := by
  rw [halfIsDenormalized_iff, halfIsFinite_iff, halfMagnitude_lt_iff, ne_eq (halfMagnitude h),
    halfMagnitude_eq_zero_iff]
  omega

/-- The normalized halves are the finite numbers from `2^-14` on (R14). -/
theorem halfIsNormalized_iff_magnitude (h : HalfBits) :
    halfIsNormalized h = true ↔ (halfIsFinite h = true ∧ (2 : ℚ) ^ (-14 : ℤ) ≤ halfMagnitude h) := by
  rw [halfIsNormalized_iff, halfIsFinite_iff, ← not_lt, halfMagnitude_lt_iff]
  exact and_comm

/-- Settles O41: class by class the float is the half's, and the magnitudes, equal for finite halves, are compared on
the half's side. -/
theorem classifierAgreesWithDecoder : Obligations.ClassifierAgreesWithDecoder := by
  intro h f c
  have hmag (hfinite : halfIsFinite h = true) : floatMagnitude f = halfMagnitude h :=
    floatMagnitude_decodeArith ((halfIsFinite_iff h).1 hfinite)
  refine ⟨(floatIsNan_decodeArith h).symm, (floatIsInfinity_decodeArith h).symm, (floatIsZero_decodeArith h).symm,
    (floatIsFinite_decodeArith h).symm, (getLsbD_decodeArith h).symm, ?denormalized, ?normalized,
    floatIsSubnormal_decodeArith h⟩
  case denormalized =>
    rw [floatIsFinite_decodeArith]
    exact (halfIsDenormalized_iff_magnitude h).trans (and_congr_right fun hfinite => by rw [hmag hfinite])
  case normalized =>
    rw [floatIsFinite_decodeArith]
    exact (halfIsNormalized_iff_magnitude h).trans (and_congr_right fun hfinite => by rw [hmag hfinite])

end Sys2Proof.Machine
end

section
/-!
The tables: the listing of ELUT (R27), entry by entry against R25's sum of fields, and the sign symmetry of LUT (R28,
R89).
-/
namespace Sys2Proof.Machine

/-- What ELUT holds at an index, as a number (R25). -/
theorem elutRead_ofNat_toNat {k : Nat} (hk : k < 512) :
    (elutRead (BitVec.ofNat 9 k)).toNat =
      if 113 ≤ k % 2 ^ 8 ∧ k % 2 ^ 8 ≤ 141 then k / 2 ^ 8 * 2 ^ 15 + (k % 2 ^ 8 - 112) * 2 ^ 10 else 0 := by
  rw [elutRead_toNat, BitVec.toNat_ofNat, Nat.mod_eq_of_lt hk]

/-- A run of indices outside the band holds sentinels (R25). -/
theorem map_elutRead_sentinels {a n : Nat} (hn : a + n ≤ 512)
    (hout : ∀ i < n, (a + i) % 2 ^ 8 ≤ 112 ∨ 142 ≤ (a + i) % 2 ^ 8) :
    (List.range' a n).map (fun k => (elutRead (BitVec.ofNat 9 k)).toNat) = List.replicate n 0 := by
  refine List.ext_getElem (by simp) fun i hi _ => ?_
  have hin : i < n := by simpa using hi
  have hsentinel := hout i hin
  rw [List.getElem_map, List.getElem_range', List.getElem_replicate, Nat.one_mul, elutRead_ofNat_toNat (by omega),
    if_neg (by omega)]

/-- The run of a sign's band holds its 29 fragments (R25). -/
theorem map_elutRead_fragments {a s : Nat} (hs : s < 2) (ha : a = s * 2 ^ 8 + 113) :
    (List.range' a 29).map (fun k => (elutRead (BitVec.ofNat 9 k)).toNat) =
      (List.range 29).map (fun i => s * 2 ^ 15 + (i + 1) * 2 ^ 10) := by
  refine List.ext_getElem (by simp) fun i hi _ => ?_
  have hin : i < 29 := by simpa using hi
  rw [List.getElem_map, List.getElem_range', List.getElem_map, List.getElem_range, Nat.one_mul,
    elutRead_ofNat_toNat (by omega), if_pos (by omega)]
  omega

/-- A run of indices and the one that starts where it ends are one run. -/
theorem range'_append_of_eq {a b m n : Nat} (hb : a + m = b) :
    List.range' a m ++ List.range' b n = List.range' a (m + n) := by
  rw [← hb, List.range'_append_1]

/-- Settles O44: the indices fall into five runs, of sentinels outside the bands and fragments inside. -/
theorem elutIsTheGoldenTable : Obligations.ElutIsTheGoldenTable := by
  have hruns : List.range 512 = List.range' 0 0x71 ++ List.range' 0x71 29 ++ List.range' 0x8E (0x171 - 0x8E) ++
      List.range' 0x171 29 ++ List.range' 0x18E (0x200 - 0x18E) := by
    rw [List.range_eq_range', range'_append_of_eq rfl, range'_append_of_eq rfl, range'_append_of_eq rfl,
      range'_append_of_eq rfl]
  unfold Obligations.ElutIsTheGoldenTable
  rw [hruns, List.map_append, List.map_append, List.map_append, List.map_append,
    map_elutRead_sentinels (by omega) (by omega), map_elutRead_fragments (a := 0x71) (s := 0) (by decide) rfl,
    map_elutRead_sentinels (by omega) (by omega), map_elutRead_fragments (a := 0x171) (s := 1) (by decide) rfl,
    map_elutRead_sentinels (by omega) (by omega)]
  simp only [Nat.zero_mul, Nat.zero_add]
  rfl

/-- The fields of a nonnegative index and of its counterpart with bit 15 set (R10). -/
theorem half_fields_add_sign {i : Nat} (hi : i < 0x8000) :
    halfSign (BitVec.ofNat 16 (0x8000 + i)) = 1 ∧ halfSign (BitVec.ofNat 16 i) = 0 ∧
    halfExp (BitVec.ofNat 16 (0x8000 + i)) = halfExp (BitVec.ofNat 16 i) ∧
    halfMant (BitVec.ofNat 16 (0x8000 + i)) = halfMant (BitVec.ofNat 16 i) := by
  simp only [halfSign_eq, halfExp_eq, halfMant_eq, BitVec.toNat_ofNat]
  omega

/-- Settles O45: the two indices differ in the sign field alone, and so do their floats. -/
theorem lutHalvesDifferBySign : Obligations.LutHalvesDifferBySign := by
  intro i hi
  obtain ⟨hneg, hpos, hexp, hmant⟩ := half_fields_add_sign hi
  obtain ⟨hsignN, hexpN, hmantN⟩ := decodeArith_fields (BitVec.ofNat 16 (0x8000 + i))
  obtain ⟨hsignP, hexpP, hmantP⟩ := decodeArith_fields (BitVec.ofNat 16 i)
  rw [lutRead_eq_decodeArith, lutRead_eq_decodeArith, float_toNat, float_toNat (decodeArith (BitVec.ofNat 16 i)),
    hsignN, hexpN, hmantN, hsignP, hexpP, hmantP, hneg, hpos, hexp, hmant]
  omega

end Sys2Proof.Machine
end

section
/-!
The assembler's operand rule (R47): a fitting operand stands alone in `arg`, so the ignored field above it is zero.
-/
namespace Sys2Proof.Machine

/-- An operand that fits leaves no ignored bit set (R42, R47). -/
theorem wellFormed_instrOf {m : Mnemonic} {n : Nat} (hfits : n < 2 ^ operandWidth (operandFormOf m)) :
    (instrOf m (BitVec.ofNat 32 n)).WellFormed := by
  have hformH : operandFormOf m = .H → (ignoredH (BitVec.ofNat 32 n)).toNat = 0 := fun hform => by
    rw [hform, operandWidth] at hfits
    simp only [ignoredH, BitVec.extractLsb'_toNat, BitVec.toNat_ofNat, Nat.shiftRight_eq_div_pow]
    omega
  have hformK : operandFormOf m = .K → (ignoredK (BitVec.ofNat 32 n)).toNat = 0 := fun hform => by
    rw [hform, operandWidth] at hfits
    simp only [ignoredK, BitVec.extractLsb'_toNat, BitVec.toNat_ofNat, Nat.shiftRight_eq_div_pow]
    omega
  cases m with
  | encT => rfl
  | encA => rfl
  | elutRd => exact hformK rfl
  | _ => exact hformH rfl

/-- The width of every operation's operand (R47). -/
theorem operandWidth_operandFormOf (m : Mnemonic) :
    operandWidth (operandFormOf m) = if m = .encT ∨ m = .encA then 32 else if m = .elutRd then 9 else 16 := by
  cases m <;> rfl

theorem operandWidth_le (form : OperandForm) : operandWidth form ≤ 32 := by cases form <;> decide

theorem assemble_of_fits {m : Mnemonic} {n : Nat} (hfits : n < 2 ^ operandWidth (operandFormOf m)) :
    assemble (.operation m n) = .ok (commandWord (opcodeOf m) (BitVec.ofNat 32 n)) := by
  simp [assemble, assembleOperation, operandFits, hfits]

theorem assemble_of_too_wide {m : Mnemonic} {n : Nat} (hwide : 2 ^ operandWidth (operandFormOf m) ≤ n) :
    assemble (.operation m n) = .error (.operandTooWide m n) := by
  simp [assemble, assembleOperation, operandFits, hwide.not_gt]

/-- Settles O46: a fitting operand has at most 32 bits, so `arg` holds it whole, under the opcode that decodes to the
operation. -/
theorem assemblerPlacesFittingOperands : Obligations.AssemblerPlacesFittingOperands := by
  intro m n width
  have hwidth : width = operandWidth (operandFormOf m) := (operandWidth_operandFormOf m).symm
  rw [hwidth]
  refine ⟨fun hfits => ?_, assemble_of_too_wide⟩
  have h32 : n < 2 ^ 32 := lt_of_lt_of_le hfits (Nat.pow_le_pow_right (by decide) (operandWidth_le _))
  exact ⟨_, _, assemble_of_fits hfits, by rw [commandArg_commandWord, BitVec.toNat_ofNat, Nat.mod_eq_of_lt h32],
    decode_commandWord_opcodeOf m _, mnemonic_instrOf m _, wellFormed_instrOf hfits⟩

end Sys2Proof.Machine
end
